-- ==== Sys2Proof/Word.lean ====
section
/-! DEFINITION. The word types of BFX: bytes of BUF and OUT, 32-bit registers, the 64-bit RESULT. -/

namespace Sys2Proof

/-- A byte of the buffer or of the output (10_state.md R27, R29). -/
abbrev Byte := BitVec 8

/-- A 32-bit register of the register map (10_state.md R15). -/
abbrev Word := BitVec 32

/-- The W_INT-bit result integer (00_scope.md R7, 10_state.md R22). -/
abbrev DWord := BitVec 64

end Sys2Proof
end

