-- ==== Sys2Proof/Config.lean ====
section
/-! DEFINITION. What is fixed for one BFX (00_scope.md R7) and the free values the spec leaves UNSPECIFIED.
Every `opaque` here has no body: no proof can see its value. -/

namespace Sys2Proof

/-- One less than BUF_CAP: open, so that BUF_CAP is any number from 1 to 65536 (R7, D3).
DESIGN CHOICE of form, log 8; safe. -/
opaque Config.bufCapLessOne : Fin 65536

/-- BUF_CAP, the capacity of BUF in bytes (R7). -/
def Config.bufCap : Nat := Config.bufCapLessOne.val + 1

/-- OUT_CAP, equal to BUF_CAP (R7). -/
def Config.outCap : Nat := Config.bufCap

/-- W_INT, the bit capacity of the result integer: 64 (R7, D2). -/
def Config.wInt : Nat := 64

/-- BFX_BASE, the platform's base address: open (10_state.md R15). Log 9; safe. -/
opaque Config.bfxBase : Nat

/-- What the `n`-th draw gives a 32-bit read of RESULT_LO, RESULT_HI or OUT_LEN made while BUSY = 1
(70_reset_and_hazards.md R98). Free value, log 3; safe. -/
opaque Config.freeReadWord : Nat → Word

/-- What the `n`-th draw gives a read of the OUT window made while BUSY = 1 (R98). Free value, log 3; safe. -/
opaque Config.freeReadByte : Nat → Byte

/-- What BUF byte `i` holds when nothing has written it since the reset that made draw `n`
(10_state.md R31). Free value, log 5; safe. -/
opaque Config.freeBufByte : Nat → Nat → Byte

/-- What OUT byte `j` holds while it is UNSPECIFIED, since the reset or the EXTB that made draw `n`
(10_state.md R29, R31; 70_reset_and_hazards.md R94). Free value, log 4; safe. -/
opaque Config.freeOutByte : Nat → Nat → Byte

end Sys2Proof
end

