-- ==== Sys2Proof/Syntax.lean ====
section
/-! DEFINITION. The syntax of BFX: the commands (30_encoding.md R51, R52), the words that hold a command,
host accesses and the places they reach (10_state.md R15), the events that act on the machine
(R13), and the host's assembler syntax (R57 to R59). -/

namespace Sys2Proof

/-- The three operations of the opcode map (R52). -/
inductive Operation where
  | extu
  | exts
  | extb
  deriving DecidableEq, Repr

/-- A command: one constructor per row of the opcode table, with the other three fields of the one
format CMD as its operands (R51; R47 calls the four fields together the command's "instruction"). -/
inductive Instr where
  /-- `extract_unsigned` (41_integer_extract.md R70). -/
  | extu (offset width len : Word)
  /-- `extract_signed` (R71). -/
  | exts (offset width len : Word)
  /-- `extract_bits` (42_raw_extract.md R75). -/
  | extb (offset width len : Word)
  deriving DecidableEq, Repr

/-- The four register values a command's fields are held in (R51). -/
structure CmdWords where
  /-- CTRL as it reads back; its bits [1:0] are OP. -/
  ctrl : Word
  /-- OFFSET. -/
  offset : Word
  /-- WIDTH. -/
  width : Word
  /-- BUF_LEN. -/
  len : Word
  deriving DecidableEq, Repr

/-- Why four words are no command of the opcode table. -/
inductive DecodeError where
  /-- OP = 0b11 (R54). -/
  | reservedOp
  deriving DecidableEq, Repr

/-- The error kinds of a command (60_exceptions.md R79). -/
inductive ErrKind where
  | outOfRange
  | invalidWidth
  | invalidOffset
  | invalidOp
  deriving DecidableEq, Repr

/-- The width of a host access (20_memory.md R43 names 8, 16 and 32 bits). -/
inductive AccessSize where
  | byte
  | half
  | word
  deriving DecidableEq, Repr

/-- One access of the host port, at an offset relative to BFX_BASE (30_encoding.md R58). An 8-bit write
carries its byte in `value[7:0]` (10_state.md R28). -/
inductive Access where
  | read (size : AccessSize) (off : Nat)
  | write (size : AccessSize) (off : Nat) (value : Word)
  deriving DecidableEq, Repr

/-- What stands at an offset of the register space (10_state.md R15, R30). -/
inductive Location where
  | ctrl
  | offset
  | width
  | bufLen
  | status
  | start
  | resultLo
  | resultHi
  | outLen
  /-- Offsets 0x00024 to 0x0FFFF: RAZ/WI. -/
  | reserved
  /-- BUF byte `i`, with `i < BUF_CAP`. -/
  | buf (i : Nat)
  /-- The BUF window past BUF_CAP-1: RAZ/WI. -/
  | pastBuf
  /-- OUT byte `j`, with `j < OUT_CAP`. -/
  | out (j : Nat)
  /-- The OUT window past OUT_CAP-1: RAZ/WI. -/
  | pastOut
  deriving DecidableEq, Repr

/-- One event of the machine's surroundings: what moves next (10_state.md R13, 70_reset_and_hazards.md R93). -/
inductive Event where
  /-- The host makes an access. -/
  | access (a : Access)
  /-- The extractor has its turn: a command in flight completes (40_command_cycle.md R63). -/
  | extractor
  /-- The platform's reset input. -/
  | reset
  deriving DecidableEq, Repr

/-- An integer literal of the assembler (30_encoding.md R57). -/
inductive Literal where
  /-- A decimal literal, with an optional leading `-`. -/
  | dec (value : Int)
  /-- A hex literal `0x…`, most significant digit first. -/
  | hex (digits : List (Fin 16))
  deriving DecidableEq, Repr

/-- A statement of a host program: the primitives of R58 and the pseudo-instructions of R59. -/
inductive HostStmt where
  | wr32 (off : Nat) (v : Word)
  | wr8 (off : Nat) (v : Byte)
  | rd32 (off : Nat)
  | rd8 (off : Nat)
  /-- `EXTU o, w`, `EXTS o, w` or `EXTB o, w`. -/
  | command (operation : Operation) (o w : Literal)
  | poll
  | loadbuf (bytes : List Byte)
  | getres
  | geterr
  | getout
  deriving DecidableEq, Repr

end Sys2Proof
end

