-- ==== Sys2Proof/WellFormed.lean ====
section
/-! DEFINITION. What a well-formed command, literal and host statement is. Each is a decidable proposition. -/

namespace Sys2Proof

/-- The LEN field of a command. -/
def Instr.len : Instr → Word
  | .extu _ _ len => len
  | .exts _ _ len => len
  | .extb _ _ len => len

/-- The LEN field of a command is a legal BUF_LEN, 0 to BUF_CAP (10_state.md R19, 30_encoding.md R51); every
OFFSET and WIDTH pattern is legal (R17, R18). -/
abbrev Instr.WellFormed (i : Instr) : Prop := i.len.toNat ≤ Config.bufCap

/-- A decimal literal lies in `[-2^31, 2^31 - 1]`; a hex literal has 1 to 8 digits (30_encoding.md R57;
that it has at least one is log 15). -/
def Literal.isWellFormed : Literal → Bool
  | .dec v => decide (-2147483648 ≤ v) && decide (v ≤ 2147483647)
  | .hex ds => decide (1 ≤ ds.length) && decide (ds.length ≤ 8)

abbrev Literal.WellFormed (l : Literal) : Prop := l.isWellFormed = true

/-- A register offset as a WR32 or RD32 may name it: aligned and below the windows (20_memory.md R43). -/
def isRegisterOffset (off : Nat) : Bool := decide (off < 0x10000) && decide (off % 4 = 0)

/-- A window offset as a WR8 or RD8 may name it (R43). -/
def isWindowOffset (off : Nat) : Bool := decide (0x10000 ≤ off) && decide (off < 0x30000)

/-- What an assembler accepts: literals in range (R57), `LOADBUF` with `n ≤ BUF_CAP` (R59), and offsets
of the right kind for the primitive (R43, R58). -/
def HostStmt.isWellFormed : HostStmt → Bool
  | .wr32 off _ => isRegisterOffset off
  | .rd32 off => isRegisterOffset off
  | .wr8 off _ => isWindowOffset off
  | .rd8 off => isWindowOffset off
  | .command _ o w => o.isWellFormed && w.isWellFormed
  | .loadbuf bytes => decide (bytes.length ≤ Config.bufCap)
  | .poll => true
  | .getres => true
  | .geterr => true
  | .getout => true

abbrev HostStmt.WellFormed (h : HostStmt) : Prop := h.isWellFormed = true

end Sys2Proof
end

