-- ==== Sys2Proof/Decode.lean ====
section
/-! DEFINITION. The opcode map (30_encoding.md R51, R52): the decoder, total on any four words and rejecting the
reserved opcode by name, the encoder, and the numbering of a command's bits the opcode table uses. -/

namespace Sys2Proof

/-- The OP code of an operation (R52). -/
def Operation.code : Operation → BitVec 2
  | .extu => 0b00#2
  | .exts => 0b01#2
  | .extb => 0b10#2

/-- The operation an OP field selects; 0b11 is reserved (R52, R54). -/
def Operation.ofCode (op : BitVec 2) : Option Operation :=
  if op = 0b00#2 then some .extu
  else if op = 0b01#2 then some .exts
  else if op = 0b10#2 then some .extb
  else none

/-- OP is CTRL[1:0] (10_state.md R16). -/
def opField (ctrl : Word) : BitVec 2 := ctrl.extractLsb' 0 2

/-- The command of an operation and its three operand words. -/
def Operation.instr : Operation → Word → Word → Word → Instr
  | .extu => .extu
  | .exts => .exts
  | .extb => .extb

/-- The command that four register values hold. CTRL[31:2] is ignored (R55); OP = 0b11 is refused by name. -/
def decode (c : CmdWords) : Except DecodeError Instr :=
  match Operation.ofCode (opField c.ctrl) with
  | some operation => .ok (operation.instr c.offset c.width c.len)
  | none => .error .reservedOp

/-- The register values that hold a command: CTRL as it reads back, `zext_32(OP)` (R16), and the operands. -/
def encode : Instr → CmdWords
  | .extu offset width len => ⟨Operation.extu.code.setWidth 32, offset, width, len⟩
  | .exts offset width len => ⟨Operation.exts.code.setWidth 32, offset, width, len⟩
  | .extb offset width len => ⟨Operation.extb.code.setWidth 32, offset, width, len⟩

/-- The four words of a command's 128 bits: CTRL first (the word the table's match and mask are over), then
OFFSET, WIDTH and BUF_LEN in the order of their addresses. DESIGN CHOICE, log 12; safe. -/
def CmdWords.ofNat (w : Nat) : CmdWords where
  ctrl := BitVec.ofNat 32 w
  offset := BitVec.ofNat 32 (w / 2 ^ 32)
  width := BitVec.ofNat 32 (w / 2 ^ 64)
  len := BitVec.ofNat 32 (w / 2 ^ 96)

/-- The 128 bits of a command as one number, bit 0 the least significant bit of CTRL (log 12). -/
def CmdWords.toNat (c : CmdWords) : Nat :=
  c.ctrl.toNat + 2 ^ 32 * c.offset.toNat + 2 ^ 64 * c.width.toNat + 2 ^ 96 * c.len.toNat

/-- The command the decoder reads from `nbits` bits `w`, every bit above them 0. -/
def decodeTableWord (nbits w : Nat) : Option Instr :=
  (decode (CmdWords.ofNat (w % 2 ^ nbits))).toOption

end Sys2Proof
end

