-- ==== Sys2Proof/Machine/State.lean ====
section
/-! DEFINITION. The state of BFX (10_state.md R14) as plain data, its reset value (R31), and the reasons a step
stops. -/

namespace Sys2Proof.Machine

/-- A byte memory: the bytes something has written, by strictly rising index. An index that is not listed
holds no known byte (10_state.md R31; log 16). -/
abbrev Memory := List Host.Cell

/-- What one read of the host port returned (30_encoding.md R58). -/
inductive Reply where
  | word (v : Word)
  | byte (v : Byte)
  deriving DecidableEq, Repr

/-- The state. The fields down to `out` are the spec's, all of them (R14: "There is nothing else"); the rest
are the model's own (log 10). -/
structure State where
  /-- CTRL.OP (R16). -/
  op : BitVec 2
  /-- OFFSET (R17). -/
  offset : Word
  /-- WIDTH (R18). -/
  width : Word
  /-- BUF_LEN (R19). -/
  bufLen : Word
  /-- STATUS.BUSY: a command is in flight (R20, R25). -/
  busy : Bool
  /-- STATUS.DONE (R20). -/
  done : Bool
  /-- STATUS.ERR (R20). -/
  err : BitVec 3
  /-- RESULT (R22). -/
  result : DWord
  /-- OUT_LEN (R23). -/
  outLen : Word
  /-- BUF, the bytes written since reset (R27). -/
  buf : Memory
  /-- OUT, the bytes of the last successful EXTB (R29). -/
  out : Memory
  /-- The model's own: how many free values have been drawn; the number of the next draw (log 3, log 10). -/
  draws : Nat
  /-- The model's own: the draw behind the BUF bytes nothing has written (log 5). -/
  bufDraw : Nat
  /-- The model's own: the draw behind the OUT bytes that are UNSPECIFIED (log 4). -/
  outDraw : Nat
  /-- The model's own: the events to come, oldest first (R13; log 1). -/
  pending : List Event
  /-- The model's own: what the host's reads returned, newest first (log 10). -/
  replies : List Reply
  deriving DecidableEq, Repr

/-- Why the machine stops with a fault. -/
inductive Fault where
  /-- Raised by the completion of EXTU, EXTS or EXTB: the command passed its checks and its field covers a
  BUF byte nothing has written since reset (70_reset_and_hazards.md R95, "unwritten buffer byte"). Safe: the
  hardware goes on with an unknown byte. -/
  | unwrittenBufferByte
  /-- Raised by a host access at an offset of 0x30000 or above, which does not belong to BFX (10_state.md R15).
  Safe: BFX never sees such an access. Log 7. -/
  | outsideBfx
  deriving DecidableEq, Repr

/-- Why a step is refused. -/
inductive Refusal where
  /-- Raised by an instruction that has no meaning yet; no arm does so now. Safe. -/
  | notModelled (mnemonic : String)
  /-- Raised by a host write to CTRL, OFFSET, WIDTH, BUF_LEN or a BUF byte while BUSY = 1: a host duty, "The
  model has no move for such a write" (70_reset_and_hazards.md R97). Safe. Log 7. -/
  | inputWriteWhileBusy
  /-- Raised by a host access of a width or alignment other than 20_memory.md R43 permits: "The model has no
  move for any other host access". Safe. Log 7. -/
  | accessForm
  deriving DecidableEq, Repr

/-- The state right after reset (R31): every register 0, the extractor idle, BUF and OUT UNSPECIFIED. Draw 0
is the one behind the UNSPECIFIED BUF and OUT bytes, so the next draw is 1, and every later EXTB or reset makes a new one;
the other fields of the model's own are empty: DESIGN CHOICE, log 10. -/
def State.reset : State where
  op := 0b00#2
  offset := 0x00000000#32
  width := 0x00000000#32
  bufLen := 0x00000000#32
  busy := false
  done := false
  err := 0b000#3
  result := 0x0000000000000000#64
  outLen := 0x00000000#32
  buf := []
  out := []
  draws := 1
  bufDraw := 0
  outDraw := 0
  pending := []
  replies := []

end Sys2Proof.Machine
end

