-- ==== Sys2Proof/Machine/Operands.lean ====
section
/-! DEFINITION. Operand assembly (30_encoding.md R53) and the checks on a command's operands
(60_exceptions.md R84). Every integer here is exact: nothing wraps (D5). -/

namespace Sys2Proof.Machine

/-- `sint_32(r)`: a register read as two's complement (00_scope.md R9, 10_state.md R17, R18). -/
def sint32 (r : Word) : Int := r.toInt

/-- `uint(r)`: a register read as unsigned (00_scope.md R9, 10_state.md R19). -/
def uint32 (r : Word) : Nat := r.toNat

/-- `check(op, o, w, L)`: the first error that applies, in the order of 60_exceptions.md R84; the conditions
are those of R80 (OutOfRange), R81 (InvalidWidth), R82 (InvalidOffset) and R83 (InvalidOp). -/
def check (op : BitVec 2) (o w : Int) (len : Nat) : Option ErrKind :=
  if op = 0b11#2 then some .invalidOp
  else if o < 0 then some .invalidOffset
  else if w ≤ 0 then some .invalidWidth
  else if (op = 0b00#2 ∨ op = 0b01#2) ∧ (Config.wInt : Int) < w then some .invalidWidth
  else if 8 * (len : Int) < o + w then some .outOfRange
  else none

/-- The four fields of the command in CTRL, OFFSET, WIDTH and BUF_LEN, as they stand (R51, 20_memory.md R47). -/
def commandWords (s : State) : CmdWords where
  ctrl := s.op.setWidth 32
  offset := s.offset
  width := s.width
  len := s.bufLen

end Sys2Proof.Machine
end

