-- ==== Sys2Proof/Machine/Flags.lean ====
section
/-! DEFINITION. STATUS, the only flags BFX has (10_state.md R20), and every way it changes: an accepted START
(40_command_cycle.md R61), a completion (R64, R67) and an error completion (60_exceptions.md R85). -/

namespace Sys2Proof.Machine

/-- The STATUS.ERR code of an error kind (R79); 0 is success. -/
def errCode : ErrKind → BitVec 3
  | .outOfRange => 1#3
  | .invalidWidth => 2#3
  | .invalidOffset => 3#3
  | .invalidOp => 4#3

/-- STATUS as the host reads it: BUSY in bit 0, DONE in bit 1, ERR in bits [4:2], 0 above (R20). -/
def statusWord (s : State) : Word :=
  s.err.setWidth 32 <<< 2 ||| (BitVec.ofBool s.done).setWidth 32 <<< 1 |||
    (BitVec.ofBool s.busy).setWidth 32

/-- `on_start()`: a command is in flight, and the last command's outcome is cleared (R61). It is also what
ends an error: nothing else returns from one (R86). -/
def onStart (s : State) : State := { s with busy := true, done := false, err := 0#3 }

/-- `finish()` (R67). -/
def finish (s : State) : State := { s with busy := false, done := true }

/-- A successful completion of a command whose results are written: `STATUS.ERR <- 0b000`, then `finish()` (R64). -/
def succeed (s : State) : State := finish { s with err := 0#3 }

/-- `raise E`: the error completion, and then `finish()`. No result and no memory is written, no state is
saved and control goes nowhere (R85). -/
def errorCompletion (e : ErrKind) (s : State) : State := finish { s with err := errCode e }

end Sys2Proof.Machine
end

