-- ==== Sys2Proof/Machine/Ops.lean ====
section
/-! DEFINITION. The operations every command shares: byte memories, the bit-position primitive (20_memory.md R35 to
R39), the bit accumulator (41_integer_extract.md R69), the state's updates, and completion (40_command_cycle.md R64). -/

namespace Sys2Proof.Machine

/-- The byte a memory holds at index `i`; none where nothing has written one. -/
def Memory.read : Memory → Nat → Option Byte
  | [], _ => none
  | (k, v) :: m, i => if k = i then some v else Memory.read m i

/-- One byte written, the indices kept strictly rising. -/
def Memory.write : Memory → Nat → Byte → Memory
  | [], i, v => [(i, v)]
  | (k, x) :: m, i, v =>
    if i < k then (i, v) :: (k, x) :: m
    else if i = k then (i, v) :: m
    else (k, x) :: Memory.write m i v

/-- The bytes written at `i`, `i + 1`, … -/
def Memory.writeFrom : Memory → Nat → List Byte → Memory
  | m, _, [] => m
  | m, i, v :: vs => Memory.writeFrom (Memory.write m i v) (i + 1) vs

/-- The canonical form: the indices rise strictly. No index is listed without a byte, and an unlisted one holds
none, so equal memories are equal lists. -/
abbrev Memory.wf (m : Memory) : Prop := List.Pairwise (fun a b => a.1 < b.1) m

/-- `locate(p)`: the byte index and the bit within the byte, 0 the MSB (R35). -/
def locate (p : Nat) : Nat × Nat := (p / 8, p % 8)

/-- `MemRead(BUF, i)` (R36); none where BUF byte `i` is unwritten. -/
def memRead (buf : Memory) (i : Nat) : Option Byte := buf.read i

/-- `read_bit(p)`: shift first, mask second (R38). -/
def readBit (buf : Memory) (p : Nat) : Option Nat :=
  match memRead buf (locate p).1 with
  | none => none
  | some b => some ((b.toNat >>> (7 - (locate p).2)) &&& 1)

/-- The first `n` rounds of the loop of `acc(o, w)`: round `i` ORs the bit at `o + i`, located afresh (R39),
into position `w - 1 - i` (R69). -/
def accLoop (buf : Memory) (o w : Nat) : Nat → Option Nat
  | 0 => some 0
  | i + 1 =>
    match accLoop buf o w i with
    | none => none
    | some r =>
      match readBit buf (o + i) with
      | none => none
      | some b => some (r ||| b <<< (w - 1 - i))

/-- `acc(o, w)`: the field as an unsigned integer (R69). -/
def acc (buf : Memory) (o w : Nat) : Option Nat := accLoop buf o w w

/-- RESULT written (10_state.md R22). -/
def setResult (r : DWord) (s : State) : State := { s with result := r }

/-- `MemWrite(OUT, j, out[j])` for every byte and `OUT_LEN <- n` (42_raw_extract.md R75). The OUT bytes past
them become UNSPECIFIED: they are unlisted, with a new free value, the next draw's (10_state.md R29; 92_eei_decisions.md D18;
log 4). -/
def setOut (bytes : List Byte) (s : State) : State :=
  { s with
    out := Memory.writeFrom [] 0 bytes
    outLen := BitVec.ofNat 32 bytes.length
    outDraw := s.draws
    draws := s.draws + 1 }

/-- `complete()` for the operation `op` with its operands (R64): the checks, then either the error completion
or the operation's own effect and `STATUS.ERR <- 0`; both end with `finish()`. The effect is none where it
reads an unwritten BUF byte, which is a fault of the run (70_reset_and_hazards.md R95). -/
def complete (op : BitVec 2) (offset width len : Word) (effect : Nat → Nat → State → Option State)
    (s : State) : Host.Outcome State Fault Refusal :=
  match check op (sint32 offset) (sint32 width) (uint32 len) with
  | some e => .next (errorCompletion e s)
  | none =>
    match effect (sint32 offset).toNat (sint32 width).toNat s with
    | none => .fault .unwrittenBufferByte
    | some t => .next (succeed t)

/-- The completion of a command with the reserved opcode: the `case` has no arm for it, and its checks end it
with InvalidOp before any byte is read (R54, R64, R83). -/
def completeReserved (c : CmdWords) (s : State) : Host.Outcome State Fault Refusal :=
  complete 0b11#2 c.offset c.width c.len (fun _ _ _ => none) s

end Sys2Proof.Machine
end

