-- ==== Sys2Proof/Machine/IntegerExtract.lean ====
section
/-! DEFINITION. Integer extraction: EXTU and EXTS (41_integer_extract.md). -/

namespace Sys2Proof.Machine

/-- `extu(o, w)`: `zext_64(acc(o, w))` (R70). -/
def extu (buf : Memory) (o w : Nat) : Option DWord :=
  match acc buf o w with
  | none => none
  | some u => some (BitVec.ofNat 64 u)

/-- The signed value of the `w`-bit pattern `u` whose first bit is `sign` (R71). -/
def signedValue (u sign w : Nat) : Int := if sign = 1 then (u : Int) - 2 ^ w else u

/-- `exts(o, w)`: the full unsigned pattern once, the sign bit, and the two's-complement correction, stored
mod 2^64 (R71, R72). -/
def exts (buf : Memory) (o w : Nat) : Option DWord :=
  match acc buf o w with
  | none => none
  | some u =>
    match readBit buf o with
    | none => none
    | some sign => some (BitVec.ofInt 64 (signedValue u sign w))

/-- EXTU (R70): RESULT is the field as an unsigned integer. -/
def execExtu (offset width len : Word) (s : State) : Host.Outcome State Fault Refusal :=
  complete 0b00#2 offset width len (fun o w t => (extu t.buf o w).map fun r => setResult r t) s

/-- EXTS (R71): RESULT is the field as a two's-complement integer. -/
def execExts (offset width len : Word) (s : State) : Host.Outcome State Fault Refusal :=
  complete 0b01#2 offset width len (fun o w t => (exts t.buf o w).map fun r => setResult r t) s

end Sys2Proof.Machine
end

