-- ==== Sys2Proof/Machine/RawExtract.lean ====
section
/-! DEFINITION. Variable-width raw extraction: EXTB (42_raw_extract.md). -/

namespace Sys2Proof.Machine

/-- `ceil(w / 8)`, the number of output bytes (R75, R76). -/
def outBytes (w : Nat) : Nat := (w + 7) / 8

/-- Field bit `i` ORed into staging byte `i div 8` at register bit `7 - (i mod 8)` (R75). -/
def orBit (out : List Byte) (i b : Nat) : List Byte :=
  if b = 1 then out.modify (i / 8) (fun x => x ||| 1#8 <<< (7 - i % 8)) else out

/-- The staging bytes after the first `n` rounds of the bit loop of `extb(o, w)`, from zeroed bytes (R75). -/
def extbLoop (buf : Memory) (o w : Nat) : Nat → Option (List Byte)
  | 0 => some (List.replicate (outBytes w) 0#8)
  | i + 1 =>
    match extbLoop buf o w i with
    | none => none
    | some out =>
      match readBit buf (o + i) with
      | none => none
      | some b => some (orBit out i b)

/-- `extb(o, w)`: the field as left-justified, zero-padded bytes (R75, R77). -/
def extb (buf : Memory) (o w : Nat) : Option (List Byte) := extbLoop buf o w w

/-- EXTB (R75): OUT and OUT_LEN take the field's bytes. -/
def execExtb (offset width len : Word) (s : State) : Host.Outcome State Fault Refusal :=
  complete 0b10#2 offset width len (fun o w t => (extb t.buf o w).map fun bytes => setOut bytes t) s

end Sys2Proof.Machine
end

