-- ==== Sys2Proof/Machine/Dispatch.lean ====
section
/-! DEFINITION. The dispatch of a command to its meaning: the `case op of` of 40_command_cycle.md R64. -/

namespace Sys2Proof.Machine

/-- The completion of a command (R64). -/
def exec (i : Instr) (s : State) : Host.Outcome State Fault Refusal :=
  match i with
  | .extu offset width len => Sys2Proof.Machine.execExtu offset width len s
  | .exts offset width len => Sys2Proof.Machine.execExts offset width len s
  | .extb offset width len => Sys2Proof.Machine.execExtb offset width len s

end Sys2Proof.Machine
end

