-- ==== Sys2Proof/Machine/Extractor.lean ====
section
/-! DEFINITION. The extractor's turn (40_command_cycle.md R63), the reset input (70_reset_and_hazards.md R93), and a
command placed in flight from outside. -/

namespace Sys2Proof.Machine

/-- The completion of the command whose fields stand in the registers (R64): the decoded command's meaning, or
the reserved opcode's InvalidOp (R54). The operands are read now, not at START (10_state.md R25, R47). -/
def completeCommand (s : State) : Host.Outcome State Fault Refusal :=
  match decode (commandWords s) with
  | .ok i => exec i s
  | .error .reservedOp => completeReserved (commandWords s) s

/-- The extractor's turn: while BUSY = 1 its one enabled step is the completion (R63); while idle it has none
and all state is kept (60_exceptions.md R92; log 2). -/
def extractorTurn (s : State) : Host.Outcome State Fault Refusal :=
  if s.busy then completeCommand s else .next s

/-- The reset input: every piece of BFX's state takes its reset value, whatever it held; a command in flight
is abandoned (R93, R94). The BUF and OUT bytes become UNSPECIFIED, with a new free value, the next
draw's (R95; log 17). The host's
side of the port, its events and replies, is not BFX's and stays (log 17). -/
def resetInput (s : State) : State :=
  { State.reset with
    draws := s.draws + 1
    bufDraw := s.draws
    outDraw := s.draws
    pending := s.pending
    replies := s.replies }

/-- A command placed in the registers and in flight, as after its operand writes and an accepted START (R61),
with no other event to come. It stands for the host's writes from outside (log 11). -/
def placeCommand (c : CmdWords) (s : State) : State :=
  onStart { s with
    op := opField c.ctrl
    offset := c.offset
    width := c.width
    bufLen := c.len
    pending := [] }

end Sys2Proof.Machine
end

