-- ==== Sys2Proof/Machine/HostPort.lean ====
section
/-! DEFINITION. The host port: the register map (10_state.md R15 to R23, R28 to R30), the accesses it permits
(20_memory.md R43) and their effects (R44), the START request (40_command_cycle.md R61, R62). -/

namespace Sys2Proof.Machine

/-- The offset an access names. -/
def accessOff : Access → Nat
  | .read _ off => off
  | .write _ off _ => off

/-- The width of an access. -/
def accessSize : Access → AccessSize
  | .read size _ => size
  | .write size _ _ => size

/-- The platform address of an access: its offset from BFX_BASE (10_state.md R15, 30_encoding.md R58). -/
def accessAddress (a : Access) : Nat := Config.bfxBase + accessOff a

/-- The offset a platform address falls on; none where the address is not one of BFX's (R15). -/
def offsetOfAddress (address : Nat) : Option Nat :=
  if Config.bfxBase ≤ address ∧ address < Config.bfxBase + 0x30000 then some (address - Config.bfxBase)
  else none

/-- The register map (R15, R30); none at 0x30000 and above, which do not belong to BFX. -/
def locationOf (off : Nat) : Option Location :=
  if off < 0x10000 then
    if off = 0x00000 then some .ctrl
    else if off = 0x00004 then some .offset
    else if off = 0x00008 then some .width
    else if off = 0x0000C then some .bufLen
    else if off = 0x00010 then some .status
    else if off = 0x00014 then some .start
    else if off = 0x00018 then some .resultLo
    else if off = 0x0001C then some .resultHi
    else if off = 0x00020 then some .outLen
    else some .reserved
  else if off < 0x20000 then
    if off - 0x10000 < Config.bufCap then some (.buf (off - 0x10000)) else some .pastBuf
  else if off < 0x30000 then
    if off - 0x20000 < Config.outCap then some (.out (off - 0x20000)) else some .pastOut
  else none

/-- The permitted widths and alignments: aligned 32-bit accesses below the windows, 8-bit accesses in them (R43). -/
def accessPermitted (size : AccessSize) (off : Nat) : Bool :=
  if off < 0x10000 then decide (size = .word) && decide (off % 4 = 0) else decide (size = .byte)

/-- A 32-bit read's reply. -/
def replyWord (v : Word) (s : State) : State := { s with replies := .word v :: s.replies }

/-- An 8-bit read's reply. -/
def replyByte (v : Byte) (s : State) : State := { s with replies := .byte v :: s.replies }

/-- A free value has been drawn. -/
def nextDraw (s : State) : State := { s with draws := s.draws + 1 }

/-- A 32-bit read of a result register: its value while idle, a fresh free value while BUSY = 1
(70_reset_and_hazards.md R98; log 3). -/
def readResultWord (v : Word) (s : State) : State :=
  if s.busy then nextDraw (replyWord (Config.freeReadWord s.draws) s) else replyWord v s

/-- OUT byte `j`: what an EXTB wrote, or the free value it holds while UNSPECIFIED (10_state.md R29; log 4). -/
def outByte (s : State) (j : Nat) : Byte := (s.out.read j).getD (Config.freeOutByte s.outDraw j)

/-- BUF byte `i` as the host reads it: what the host wrote, or the free value it holds since reset
(R28, R31; log 5). -/
def bufByte (s : State) (i : Nat) : Byte := (s.buf.read i).getD (Config.freeBufByte s.bufDraw i)

/-- A host read: the reply, and no effect on BFX's state (R44). -/
def hostRead (l : Location) (s : State) : State :=
  match l with
  | .ctrl => replyWord (s.op.setWidth 32) s
  | .offset => replyWord s.offset s
  | .width => replyWord s.width s
  | .bufLen => replyWord s.bufLen s
  | .status => replyWord (statusWord s) s
  | .start => replyWord 0x00000000#32 s
  | .resultLo => readResultWord (s.result.extractLsb' 0 32) s
  | .resultHi => readResultWord (s.result.extractLsb' 32 32) s
  | .outLen => readResultWord s.outLen s
  | .reserved => replyWord 0x00000000#32 s
  | .buf i => replyByte (bufByte s i) s
  | .pastBuf => replyByte 0x00#8 s
  | .out j => if s.busy then nextDraw (replyByte (Config.freeReadByte s.draws) s) else replyByte (outByte s j) s
  | .pastOut => replyByte 0x00#8 s

/-- A host write to a command's input: refused while BUSY = 1, a duty of the host (70_reset_and_hazards.md R97). -/
def writeInput (s t : State) : Host.Outcome State Fault Refusal :=
  if s.busy then .refused .inputWriteWhileBusy else .next t

/-- BUF_LEN is write-any-read-legal: a value above BUF_CAP is ignored (10_state.md R19). -/
def setBufLen (v : Word) (s : State) : State :=
  if uint32 v ≤ Config.bufCap then { s with bufLen := v } else s

/-- A write to START: accepted with bit 0 = 1 while idle (R61), ignored with bit 0 = 0 (R21) or while BUSY = 1 (R62). -/
def startWrite (v : Word) (s : State) : State :=
  if v.getLsbD 0 && !s.busy then onStart s else s

/-- A host write (R44): an input set, one BUF byte set, a start request, or no effect. -/
def hostWrite (l : Location) (v : Word) (s : State) : Host.Outcome State Fault Refusal :=
  match l with
  | .ctrl => writeInput s { s with op := opField v }
  | .offset => writeInput s { s with offset := v }
  | .width => writeInput s { s with width := v }
  | .bufLen => writeInput s (setBufLen v s)
  | .buf i => writeInput s { s with buf := s.buf.write i (v.extractLsb' 0 8) }
  | .start => .next (startWrite v s)
  | .status => .next s
  | .resultLo => .next s
  | .resultHi => .next s
  | .outLen => .next s
  | .reserved => .next s
  | .pastBuf => .next s
  | .out _ => .next s
  | .pastOut => .next s

/-- One access of the host port: outside BFX it is a fault, of a width or alignment that is not permitted a
refusal (log 7), else it has its effect. -/
def hostTurn (a : Access) (s : State) : Host.Outcome State Fault Refusal :=
  match locationOf (accessOff a) with
  | none => .fault .outsideBfx
  | some l =>
    if accessPermitted (accessSize a) (accessOff a) then
      match a with
      | .read _ _ => .next (hostRead l s)
      | .write _ _ v => hostWrite l v s
    else .refused .accessForm

end Sys2Proof.Machine
end

