-- ==== Sys2Proof/Machine/Events.lean ====
section
/-! DEFINITION. Which agent moves: the host, the extractor or the reset input (10_state.md R13, 40_command_cycle.md R63). -/

namespace Sys2Proof.Machine

/-- The next event acts on the state it has been taken from. With no event left the extractor moves, so that a
command in flight completes (R63; log 1). -/
def nextEvent (s : State) : Host.Outcome State Fault Refusal :=
  match s.pending with
  | [] => extractorTurn s
  | .extractor :: rest => extractorTurn { s with pending := rest }
  | .access a :: rest => hostTurn a { s with pending := rest }
  | .reset :: rest => .next (resetInput { s with pending := rest })

end Sys2Proof.Machine
end

