-- ==== Sys2Proof/Machine/Step.lean ====
section
/-! DEFINITION. One step of the machine, and a command placed as its next one. -/

namespace Sys2Proof.Machine

/-- One step: the next of the machine's events (10_state.md R13). -/
def step (s : State) : Host.Outcome State Fault Refusal := nextEvent s

/-- `s` with the command of `nbits` bits `w`, every bit above them 0, in its registers and in flight, so that
the very next step completes it (log 11). -/
def State.withFetchWord (s : State) (nbits w : Nat) : State :=
  placeCommand (CmdWords.ofNat (w % 2 ^ nbits)) s

end Sys2Proof.Machine
end

