-- ==== Sys2Proof/Machine/Assembler.lean ====
section
/-! DEFINITION. The host's notation: literals and command lines (30_encoding.md R57), the expansions of the
pseudo-instructions (R59), the values a host program reads off its replies (R59), and the text of a bus
transaction (R60). Notation only: no step calls anything here (92_eei_decisions.md D29). -/

namespace Sys2Proof.Machine

/-- The 32-bit pattern a literal stands for; none where an assembler refuses it (R57). -/
def literalValue (l : Literal) : Option Word :=
  if l.isWellFormed then
    match l with
    | .dec v => some (BitVec.ofInt 32 v)
    | .hex ds => some (BitVec.ofNat 32 (ds.foldl (fun n d => 16 * n + d.val) 0))
  else none

/-- The value of a decimal digit. -/
def decDigit (c : Char) : Option Nat :=
  if 48 ≤ c.toNat ∧ c.toNat ≤ 57 then some (c.toNat - 48) else none

/-- The value of a hex digit, in either case (log 15). -/
def hexDigit (c : Char) : Option (Fin 16) :=
  if 48 ≤ c.toNat ∧ c.toNat ≤ 57 then some (Fin.ofNat 16 (c.toNat - 48))
  else if 65 ≤ c.toNat ∧ c.toNat ≤ 70 then some (Fin.ofNat 16 (c.toNat - 55))
  else if 97 ≤ c.toNat ∧ c.toNat ≤ 102 then some (Fin.ofNat 16 (c.toNat - 87))
  else none

/-- A non-empty run of decimal digits, read most significant first. -/
def readDecimal (cs : List Char) : Option Nat :=
  if cs.isEmpty then none
  else (cs.mapM decDigit).map (fun ds => ds.foldl (fun n d => 10 * n + d) 0)

/-- A literal's text: decimal with an optional leading `-`, or `0x…` (R57). -/
def readLiteral (cs : List Char) : Option Literal :=
  match cs with
  | '0' :: 'x' :: ds => (ds.mapM hexDigit).map .hex
  | '-' :: ds => (readDecimal ds).map (fun n => .dec (-(n : Int)))
  | ds => (readDecimal ds).map (fun n => .dec (n : Int))

/-- The operands of a command line, `<o>, <w>`. -/
def readOperands (operation : Operation) (cs : List Char) : Option HostStmt :=
  match readLiteral (cs.takeWhile (· != ',')), cs.dropWhile (· != ',') with
  | some o, ',' :: ' ' :: ws =>
    match readLiteral ws with
    | some w => if o.isWellFormed && w.isWellFormed then some (.command operation o w) else none
    | none => none
  | _, _ => none

/-- A command line `EXTU <o>, <w>`, `EXTS <o>, <w>` or `EXTB <o>, <w>`, spaced as R57 writes it (log 15); none
where an assembler refuses it. -/
def readCommand (cs : List Char) : Option HostStmt :=
  match cs with
  | 'E' :: 'X' :: 'T' :: 'U' :: ' ' :: rest => readOperands .extu rest
  | 'E' :: 'X' :: 'T' :: 'S' :: ' ' :: rest => readOperands .exts rest
  | 'E' :: 'X' :: 'T' :: 'B' :: ' ' :: rest => readOperands .extb rest
  | _ => none

/-- What a host program saw on the way, on which the length of an expansion depends: how many STATUS reads of a
POLL returned BUSY = 1, and the OUT_LEN a GETOUT read (log 18). -/
structure Seen where
  busyPolls : Nat
  outLen : Nat
  deriving DecidableEq, Repr

/-- The four writes of an `EXTx o, w` before its POLL (R59). -/
def commandEvents (operation : Operation) (o w : Word) : List Event :=
  [.access (.write .word 0x00004 o), .access (.write .word 0x00008 w),
   .access (.write .word 0x00000 (operation.code.setWidth 32)), .access (.write .word 0x00014 1#32)]

/-- POLL: STATUS reads until one returns BUSY = 0; the completion stands before the last one (R59, R99). -/
def pollEvents (busyPolls : Nat) : List Event :=
  List.replicate busyPolls (.access (.read .word 0x00010)) ++
    [.extractor, .access (.read .word 0x00010)]

/-- The byte writes of a LOADBUF from index `i` on (R59). -/
def loadBytes : Nat → List Byte → List Event
  | _, [] => []
  | i, b :: bs => .access (.write .byte (0x10000 + i) (b.setWidth 32)) :: loadBytes (i + 1) bs

/-- LOADBUF: the bytes, then BUF_LEN (R59). -/
def loadEvents (bytes : List Byte) : List Event :=
  loadBytes 0 bytes ++ [.access (.write .word 0x0000C (BitVec.ofNat 32 bytes.length))]

/-- The reads of `n` OUT bytes (R59). -/
def outReads (n : Nat) : List Event :=
  (List.range n).map fun j => .access (.read .byte (0x20000 + j))

/-- The expansion of a host statement into what happens at the machine (R58, R59); none where an assembler
refuses it. -/
def stmtEvents (h : HostStmt) (seen : Seen) : Option (List Event) :=
  if h.isWellFormed then
    match h with
    | .wr32 off v => some [.access (.write .word off v)]
    | .wr8 off v => some [.access (.write .byte off (v.setWidth 32))]
    | .rd32 off => some [.access (.read .word off)]
    | .rd8 off => some [.access (.read .byte off)]
    | .command operation o w =>
      match literalValue o, literalValue w with
      | some ov, some wv => some (commandEvents operation ov wv ++ pollEvents seen.busyPolls)
      | _, _ => none
    | .poll => some (pollEvents seen.busyPolls)
    | .loadbuf bytes => some (loadEvents bytes)
    | .getres => some [.access (.read .word 0x00018), .access (.read .word 0x0001C)]
    | .geterr => some [.access (.read .word 0x00010)]
    | .getout => some (.access (.read .word 0x00020) :: outReads seen.outLen)
  else none

/-- The bus transactions among the events, in order: the encoding of a host program (R60). -/
def busTransactions : List Event → List Access
  | [] => []
  | .access a :: rest => a :: busTransactions rest
  | .extractor :: rest => busTransactions rest
  | .reset :: rest => busTransactions rest

/-- POLL's loop goes on while STATUS[0] = 1 (R59). -/
def pollAgain (status : Word) : Bool := status.getLsbD 0

/-- `r = hi * 2^32 + lo` of GETRES (R59). -/
def getresValue (lo hi : Word) : Nat := uint32 hi * 2 ^ 32 + uint32 lo

/-- `e = s[4:2]` of GETERR (R59). -/
def geterrValue (status : Word) : BitVec 3 := status.extractLsb' 2 3

/-- The character of a hex digit, capitals as R60 writes them. -/
def hexChar (d : Nat) : Char := if d < 10 then Char.ofNat (48 + d) else Char.ofNat (55 + d)

/-- `n` hex digits of a value, most significant first. -/
def hexText : Nat → Nat → List Char
  | 0, _ => []
  | n + 1, v => hexText n (v / 16) ++ [hexChar (v % 16)]

/-- The text of a bus transaction: 5-digit offsets, 8-digit words, 2-digit bytes (R60); none for a width no
host primitive has. -/
def accessText : Access → Option (List Char)
  | .write .word off v => some (['W', '3', '2', ' ', '@'] ++ hexText 5 off ++ [' ', '=', ' '] ++ hexText 8 v.toNat)
  | .write .byte off v =>
    some (['W', '8', ' ', '@'] ++ hexText 5 off ++ [' ', '=', ' '] ++ hexText 2 (v.toNat % 256))
  | .read .word off => some (['R', '3', '2', ' ', '@'] ++ hexText 5 off)
  | .read .byte off => some (['R', '8', ' ', '@'] ++ hexText 5 off)
  | .write .half _ _ => none
  | .read .half _ => none

end Sys2Proof.Machine
end

