-- ==== Sys2Proof/Safety.lean ====
section
/-! DEFINITION. What counts as a state the machine can be in, a duty the host keeps, and a valid field: the terms the
claims use. -/

namespace Sys2Proof.Machine

/-- The indices listed in a memory are below `n`. -/
abbrev Memory.below (m : Memory) (n : Nat) : Prop := ∀ c ∈ m, c.1 < n

/-- What holds of the state at reset and after every step. -/
structure Inv (s : State) : Prop where
  /-- BUF is in canonical form within its capacity (10_state.md R27). -/
  bufWf : s.buf.wf
  bufBelow : s.buf.below Config.bufCap
  /-- OUT lists exactly the bytes 0 to OUT_LEN-1, and fits (R29; 42_raw_extract.md R76). -/
  outBytes : s.out.map Prod.fst = List.range s.outLen.toNat
  outFits : s.outLen.toNat ≤ Config.outCap
  /-- BUF_LEN always holds a legal value (R19). -/
  lenLegal : s.bufLen.toNat ≤ Config.bufCap
  /-- BUSY and DONE are never 1 together (R20). -/
  notBoth : ¬(s.busy = true ∧ s.done = true)
  /-- ERR codes 5 to 7 are never produced (R20, 60_exceptions.md R79). -/
  errLegal : s.err.toNat ≤ 4
  /-- ERR is 0 until a command has completed (R31, 40_command_cycle.md R61). -/
  errOnlyDone : s.err ≠ 0#3 → s.done = true
  /-- The draws behind the UNSPECIFIED bytes have been made, so that the next draw is a new one (R29, R31; log 10). -/
  bufDrawn : s.bufDraw < s.draws
  outDrawn : s.outDraw < s.draws

/-- Every BUF byte that the field of `w` bits at `o` covers has been written (70_reset_and_hazards.md R95). -/
def FieldWritten (buf : Memory) (o w : Nat) : Prop :=
  ∀ k, o / 8 ≤ k → k ≤ (o + w - 1) / 8 → (buf.read k).isSome = true

/-- The stream bit at offset `p` is `b`: bit `7 - p mod 8` of BUF byte `p div 8` (20_memory.md R35, R37). -/
def BitIs (buf : Memory) (p : Nat) (b : Bool) : Prop :=
  ∃ byte, buf.read (p / 8) = some byte ∧ byte.getLsbD (7 - p % 8) = b

/-- The operands of an integer extraction that raise no error: `o ≥ 0`, `1 ≤ w ≤ 64`, `o + w ≤ 8 * L`
(41_integer_extract.md R70, R71). -/
structure IntOperands (offset width len : Word) (o w : Nat) : Prop where
  offset_eq : offset.toInt = (o : Int)
  width_eq : width.toInt = (w : Int)
  pos : 1 ≤ w
  capacity : w ≤ 64
  fits : o + w ≤ 8 * len.toNat

/-- The operands of a raw extraction that raise no error: `o ≥ 0`, `w ≥ 1`, `o + w ≤ 8 * L`
(42_raw_extract.md R75). -/
structure RawOperands (offset width len : Word) (o w : Nat) : Prop where
  offset_eq : offset.toInt = (o : Int)
  width_eq : width.toInt = (w : Int)
  pos : 1 ≤ w
  fits : o + w ≤ 8 * len.toNat

/-- Bytes read as one big-endian integer, the first the most significant (20_memory.md R34). -/
def bigEndian : List Byte → Nat
  | [] => 0
  | b :: bs => b.toNat * 2 ^ (8 * bs.length) + bigEndian bs

/-- BUF holds the bytes `bs` at indices 0 to `bs.length - 1`. -/
def HoldsBytes (m : Memory) (bs : List Byte) : Prop := ∀ k, (h : k < bs.length) → m.read k = some bs[k]

/-- A write to an input of a command: CTRL, OFFSET, WIDTH, BUF_LEN or a BUF byte (70_reset_and_hazards.md R97). -/
def isInput : Location → Bool
  | .ctrl => true
  | .offset => true
  | .width => true
  | .bufLen => true
  | .buf _ => true
  | .status => false
  | .start => false
  | .resultLo => false
  | .resultHi => false
  | .outLen => false
  | .reserved => false
  | .pastBuf => false
  | .out _ => false
  | .pastOut => false

/-- The access keeps the host's duties: it is inside BFX (10_state.md R15), of a permitted form (20_memory.md
R43), and while BUSY = 1 it writes no input (R97; a write past BUF_CAP writes none, log 6). -/
def dutyKept (busy : Bool) (a : Access) : Bool :=
  match locationOf (accessOff a) with
  | none => false
  | some l =>
    accessPermitted (accessSize a) (accessOff a) &&
      match a with
      | .read _ _ => true
      | .write _ _ _ => !(busy && isInput l)

/-- The event may come while BUSY = 1 and leaves the command in flight: a turn of the extractor, or an access
that keeps the host's duties. -/
def harmless : Event → Bool
  | .access a => dutyKept true a
  | .extractor => true
  | .reset => false

/-- The next event is the extractor's: its turn is written down, or no event is left. -/
def extractorIsNext (s : State) : Bool :=
  match s.pending with
  | [] => true
  | .extractor :: _ => true
  | .access _ :: _ => false
  | .reset :: _ => false

/-- A run of a host program has ended: its last bus transaction is made and BUSY = 0, whatever turn of the extractor or reset
is still to come. A state with BUSY = 1 is never final (70_reset_and_hazards.md R102). -/
def runEnded (s : State) : Bool := (busTransactions s.pending).isEmpty && !s.busy

/-- The state with its next event taken off. -/
def popEvent (s : State) : State := { s with pending := s.pending.tail }

end Sys2Proof.Machine
end

