-- ==== Sys2Proof/Certificates/Slice0/Obligations.lean ====
section
/-! DEFINITION. The statements for the provers. Each docstring names the rules of spec/ it rests on; a clause that rests on a
choice of the model names its log entry. -/

open Sys2Proof Sys2Proof.Machine

/-! ## Encoding -/

/-- Decode and encode agree (30_encoding.md R51 to R53): a command's four words decode to it, with every value of
every operand; so does its 128-bit image, however many zero bits follow (the image's layout is log 12). -/
def Obligations.DecodeOfEncodedCommand : Prop :=
  ∀ i : Instr, decode (encode i) = .ok i ∧
    ∀ nbits, 128 ≤ nbits → decodeTableWord nbits (encode i).toNat = some i

/-- The match and mask forms of 30_encoding.md R52, and the reserved row. -/
def Obligations.DecodeFollowsMatchAndMask : Prop :=
  ∀ c : CmdWords,
    (decode c = .ok (.extu c.offset c.width c.len) ↔ c.ctrl &&& 0x00000003#32 = 0x00000000#32) ∧
    (decode c = .ok (.exts c.offset c.width c.len) ↔ c.ctrl &&& 0x00000003#32 = 0x00000001#32) ∧
    (decode c = .ok (.extb c.offset c.width c.len) ↔ c.ctrl &&& 0x00000003#32 = 0x00000002#32) ∧
    (decode c = .error .reservedOp ↔ c.ctrl &&& 0x00000003#32 = 0x00000003#32)

/-- 30_encoding.md R55: CTRL[31:2] is RAZ/WI and START[31:1] is ignored; no value of those bits changes which
operation runs or how; every CTRL value selects exactly one row, and the decode is total. -/
def Obligations.IgnoredBitsNeverChangeTheCommand : Prop :=
  (∀ c c' : CmdWords, c.ctrl.extractLsb' 0 2 = c'.ctrl.extractLsb' 0 2 → c.offset = c'.offset →
    c.width = c'.width → c.len = c'.len → decode c = decode c') ∧
  (∀ (s : State) (v v' : Word) (rest : List Event), v.extractLsb' 0 2 = v'.extractLsb' 0 2 →
    step { s with pending := .access (.write .word 0x00000 v) :: rest } =
      step { s with pending := .access (.write .word 0x00000 v') :: rest }) ∧
  (∀ (s : State) (rest : List Event), s.pending = .access (.read .word 0x00000) :: rest →
    ∃ v : Word, v.extractLsb' 2 30 = 0#30 ∧
      step s = .next { s with pending := rest, replies := .word v :: s.replies }) ∧
  (∀ (s : State) (v v' : Word) (rest : List Event), v.getLsbD 0 = v'.getLsbD 0 →
    step { s with pending := .access (.write .word 0x00014 v) :: rest } =
      step { s with pending := .access (.write .word 0x00014 v') :: rest }) ∧
  (∀ c : CmdWords, (∃ i, decode c = .ok i) ∨ decode c = .error .reservedOp)

/-- Words written out bit by bit from 30_encoding.md R52 and R60 (the layout of the operand words is log 12). -/
def Obligations.WrittenOutWordsDecode : Prop :=
  decodeTableWord 32 0b00000000000000000000000000000000 = some (.extu 0#32 0#32 0#32) ∧
  decodeTableWord 32 0b00000000000000000000000000000001 = some (.exts 0#32 0#32 0#32) ∧
  decodeTableWord 32 0b00000000000000000000000000000010 = some (.extb 0#32 0#32 0#32) ∧
  decodeTableWord 32 0b00000000000000000000000000000011 = none ∧
  decodeTableWord 128 0x00000002_00000005_00000004_00000001 = some (.exts 4#32 5#32 2#32)

/-! ## The step -/

/-- When the extractor moves next and a command is in flight whose fields decode to `i`, the step is `exec i` (40_command_cycle.md
R63, R64), on the state whose next event has been taken off (log 1); while idle nothing else changes
(60_exceptions.md R92, log 2). -/
def Obligations.StepRunsDecodedCommand : Prop :=
  (∀ (s : State) (i : Instr), s.busy = true → extractorIsNext s = true → decode (commandWords s) = .ok i →
    step s = exec i (popEvent s)) ∧
  (∀ s : State, s.busy = false → extractorIsNext s = true → step s = .next (popEvent s))

/-- A command placed from its 128 bits runs in the very next step (log 11, log 12). -/
def Obligations.PlacedCommandRunsNext : Prop :=
  ∀ (s : State) (i : Instr), ∃ t : State,
    step (s.withFetchWord 128 (encode i).toNat) = exec i t ∧ t.op = opField (encode i).ctrl ∧
    t.offset = (encode i).offset ∧ t.width = (encode i).width ∧ t.bufLen = (encode i).len ∧
    t.busy = true ∧ t.done = false ∧ t.err = 0#3 ∧ t.result = s.result ∧ t.outLen = s.outLen ∧
    t.buf = s.buf ∧ t.out = s.out

/-- 30_encoding.md R54: OP = 0b11 can be written to CTRL; a command started with it, whatever its operands and whether or not any
buffer byte is written, completes with ERR = 4 and writes no result; and it is the only illegal encoding. -/
def Obligations.ReservedOpcodeCompletesInvalidOp : Prop :=
  (∀ (s : State) (v : Word) (rest : List Event), s.busy = false → v.extractLsb' 0 2 = 0b11#2 →
    Host.Core.run core 3 { s with
        pending := .access (.write .word 0x00000 v) :: .access (.write .word 0x00014 1#32) :: .extractor :: rest } =
      .next { s with pending := rest, op := 0b11#2, err := 4#3, busy := false, done := true }) ∧
  (∀ c : CmdWords, decode c = .error .reservedOp ↔ c.ctrl.extractLsb' 0 2 = 0b11#2)

/-- 60_exceptions.md R84, the whole order of the checks, with the codes of R79 and the error completion of
R85: of the command in flight, the first error that applies is reported, and nothing else changes. -/
def Obligations.FirstErrorIsReported : Prop :=
  ∀ s : State, s.busy = true → extractorIsNext s = true →
    (s.op = 0b11#2 → step s = .next { popEvent s with err := 4#3, busy := false, done := true }) ∧
    (s.op ≠ 0b11#2 → s.offset.toInt < 0 →
      step s = .next { popEvent s with err := 3#3, busy := false, done := true }) ∧
    (s.op ≠ 0b11#2 → 0 ≤ s.offset.toInt → s.width.toInt ≤ 0 →
      step s = .next { popEvent s with err := 2#3, busy := false, done := true }) ∧
    (s.op = 0b00#2 ∨ s.op = 0b01#2 → 0 ≤ s.offset.toInt → 64 < s.width.toInt →
      step s = .next { popEvent s with err := 2#3, busy := false, done := true }) ∧
    (s.op = 0b00#2 ∨ s.op = 0b01#2 → 0 ≤ s.offset.toInt → 0 < s.width.toInt → s.width.toInt ≤ 64 →
      8 * (s.bufLen.toNat : Int) < s.offset.toInt + s.width.toInt →
      step s = .next { popEvent s with err := 1#3, busy := false, done := true }) ∧
    (s.op = 0b10#2 → 0 ≤ s.offset.toInt → 0 < s.width.toInt →
      8 * (s.bufLen.toNat : Int) < s.offset.toInt + s.width.toInt →
      step s = .next { popEvent s with err := 1#3, busy := false, done := true }) ∧
    (∀ t, step s = .next t → t.err ≠ 0#3 →
      s.op = 0b11#2 ∨ s.offset.toInt < 0 ∨ s.width.toInt ≤ 0 ∨
      (s.op ≠ 0b10#2 ∧ 64 < s.width.toInt) ∨
      8 * (s.bufLen.toNat : Int) < s.offset.toInt + s.width.toInt)

/-! ## The commands -/

/-- 41_integer_extract.md R70: EXTU completes, on operands that raise no error and whose field has been written,
with the field's first bit in `RESULT[w-1]`, its last in `RESULT[0]` and zeros above, and writes nothing else but
STATUS; on any other operands it completes with the error R70 names, and RESULT is unchanged. -/
def Obligations.ExtuCompletesWithTheFieldBits : Prop :=
  ∀ (s : State) (offset width len : Word),
    (encode (.extu offset width len)).ctrl.extractLsb' 0 2 = 0b00#2 ∧
    (∀ o w, IntOperands offset width len o w → FieldWritten s.buf o w →
      ∃ r : DWord,
        exec (.extu offset width len) s =
          .next { s with result := r, err := 0#3, busy := false, done := true } ∧
        (∀ i < w, BitIs s.buf (o + i) (r.getLsbD (w - 1 - i))) ∧
        (∀ k, w ≤ k → r.getLsbD k = false)) ∧
    (offset.toInt < 0 →
      exec (.extu offset width len) s = .next { s with err := 3#3, busy := false, done := true }) ∧
    (0 ≤ offset.toInt → (width.toInt ≤ 0 ∨ 64 < width.toInt) →
      exec (.extu offset width len) s = .next { s with err := 2#3, busy := false, done := true }) ∧
    (0 ≤ offset.toInt → 1 ≤ width.toInt → width.toInt ≤ 64 →
      8 * (len.toNat : Int) < offset.toInt + width.toInt →
      exec (.extu offset width len) s = .next { s with err := 1#3, busy := false, done := true })

/-- 41_integer_extract.md R71: EXTS completes, on operands that raise no error and whose field has been written,
with RESULT the two's-complement reading of the field: its pattern `u` when the first bit is 0, `u - 2^w` when it
is 1; on any other operands it completes with the same errors as EXTU. -/
def Obligations.ExtsCompletesWithTheSignedField : Prop :=
  ∀ (s : State) (offset width len : Word),
    (encode (.exts offset width len)).ctrl.extractLsb' 0 2 = 0b01#2 ∧
    (∀ o w, IntOperands offset width len o w → FieldWritten s.buf o w →
      ∃ (r : DWord) (u : Nat) (sign : Bool),
        exec (.exts offset width len) s =
          .next { s with result := r, err := 0#3, busy := false, done := true } ∧
        u < 2 ^ w ∧ (∀ i < w, BitIs s.buf (o + i) (u.testBit (w - 1 - i))) ∧
        BitIs s.buf o sign ∧
        r.toInt = if sign then (u : Int) - 2 ^ w else (u : Int)) ∧
    (offset.toInt < 0 →
      exec (.exts offset width len) s = .next { s with err := 3#3, busy := false, done := true }) ∧
    (0 ≤ offset.toInt → (width.toInt ≤ 0 ∨ 64 < width.toInt) →
      exec (.exts offset width len) s = .next { s with err := 2#3, busy := false, done := true }) ∧
    (0 ≤ offset.toInt → 1 ≤ width.toInt → width.toInt ≤ 64 →
      8 * (len.toNat : Int) < offset.toInt + width.toInt →
      exec (.exts offset width len) s = .next { s with err := 1#3, busy := false, done := true })

/-- 42_raw_extract.md R75 and R77: EXTB completes, on operands that raise no error and whose field has been written, with
OUT_LEN = ceil(w / 8); it stores to the OUT indices 0 to `outBytes w - 1`: field bit `i` in register bit
`7 - i mod 8` of byte `i div 8`, zeros after the field. The OUT bytes past them hold no known byte (R75; the model's
counters behind their free value are left open here), and BUF and RESULT are unchanged. On any other operands it
completes with the error R75 names and changes nothing but STATUS. -/
def Obligations.ExtbCompletesWithTheFieldBytes : Prop :=
  ∀ (s : State) (offset width len : Word),
    (encode (.extb offset width len)).ctrl.extractLsb' 0 2 = 0b10#2 ∧
    (∀ o w, RawOperands offset width len o w → FieldWritten s.buf o w →
      ∃ (m : Memory) (outDraw draws : Nat),
        exec (.extb offset width len) s =
          .next { s with
            out := m, outLen := BitVec.ofNat 32 (outBytes w), outDraw := outDraw, draws := draws,
            err := 0#3, busy := false, done := true } ∧
        (∀ j < outBytes w, ∃ byte, m.read j = some byte ∧
          ∀ k < 8, (8 * j + k < w → BitIs s.buf (o + (8 * j + k)) (byte.getLsbD (7 - k))) ∧
            (w ≤ 8 * j + k → byte.getLsbD (7 - k) = false)) ∧
        (∀ j, outBytes w ≤ j → m.read j = none)) ∧
    (offset.toInt < 0 →
      exec (.extb offset width len) s = .next { s with err := 3#3, busy := false, done := true }) ∧
    (0 ≤ offset.toInt → width.toInt ≤ 0 →
      exec (.extb offset width len) s = .next { s with err := 2#3, busy := false, done := true }) ∧
    (0 ≤ offset.toInt → 1 ≤ width.toInt →
      8 * (len.toNat : Int) < offset.toInt + width.toInt →
      exec (.extb offset width len) s = .next { s with err := 1#3, busy := false, done := true })

/-- 70_reset_and_hazards.md R95: a command stops with the fault "unwritten buffer byte" exactly when its operands
raise no error and its field covers a BUF byte that nothing has written; it has no other stop. -/
def Obligations.CommandFaultsExactlyOnUnwrittenBytes : Prop :=
  ∀ (s : State) (offset width len : Word),
    (exec (.extu offset width len) s = .fault .unwrittenBufferByte ↔
      ∃ o w, IntOperands offset width len o w ∧ ¬FieldWritten s.buf o w) ∧
    (exec (.exts offset width len) s = .fault .unwrittenBufferByte ↔
      ∃ o w, IntOperands offset width len o w ∧ ¬FieldWritten s.buf o w) ∧
    (exec (.extb offset width len) s = .fault .unwrittenBufferByte ↔
      ∃ o w, RawOperands offset width len o w ∧ ¬FieldWritten s.buf o w) ∧
    (∀ i, exec i s ≠ .fault .outsideBfx) ∧ (∀ i r, exec i s ≠ .refused r)

/-- The frame of every command that gives a next state (40_command_cycle.md R66, R67; 20_memory.md R41). Of the
spec's state EXTU and EXTS change only RESULT and STATUS, EXTB only OUT, OUT_LEN and STATUS; every BUF byte reads as before;
every completion ends with BUSY = 0 and DONE = 1. -/
def Obligations.CommandFrame : Prop :=
  (∀ (s t : State) (offset width len : Word),
    (exec (.extu offset width len) s = .next t ∨ exec (.exts offset width len) s = .next t) →
    t = { s with result := t.result, err := t.err, busy := false, done := true }) ∧
  (∀ (s t : State) (offset width len : Word), exec (.extb offset width len) s = .next t →
    t = { s with
      out := t.out, outLen := t.outLen, outDraw := t.outDraw, draws := t.draws,
      err := t.err, busy := false, done := true }) ∧
  (∀ (s t : State) (i : Instr), exec i s = .next t → ∀ k, t.buf.read k = s.buf.read k)

/-- 40_command_cycle.md R66: a successful command leaves the outputs of the other kinds untouched, the OUT bytes past
OUT_LEN hold no known byte after an EXTB, and a failed command changes none of RESULT, OUT_LEN and OUT. That an OUT byte
which is UNSPECIFIED reads as before too is the model's reading of `do not change any OUT byte` (log 4). -/
def Obligations.OutputsOfOtherKindsStay : Prop :=
  ∀ (s t : State) (offset width len : Word),
    (exec (.extu offset width len) s = .next t ∨ exec (.exts offset width len) s = .next t →
      t.outLen = s.outLen ∧ ∀ j, outByte t j = outByte s j) ∧
    (exec (.extb offset width len) s = .next t → t.result = s.result) ∧
    (exec (.extb offset width len) s = .next t → t.err = 0#3 → ∀ j, t.outLen.toNat ≤ j → t.out.read j = none) ∧
    (∀ i, exec i s = .next t → t.err ≠ 0#3 →
      t.result = s.result ∧ t.outLen = s.outLen ∧ ∀ j, outByte t j = outByte s j)

/-- 60_exceptions.md R85: an error completion writes STATUS and nothing else. -/
def Obligations.ErrorCompletionWritesOnlyStatus : Prop :=
  ∀ (s t : State) (i : Instr), exec i s = .next t → t.err ≠ 0#3 →
    t = { s with err := t.err, busy := false, done := true }

/-- 41_integer_extract.md R69: `acc` lies in `[0, 2^w - 1]`, is the sum of its bits by place, and is the slice of the
buffer read as one big-endian integer. -/
def Obligations.AccumulatorIsTheBigEndianSlice : Prop :=
  ∀ (buf : Memory) (bs : List Byte) (o w : Nat), HoldsBytes buf bs → 1 ≤ w → o + w ≤ 8 * bs.length →
    ∃ u, acc buf o w = some u ∧ u ≤ 2 ^ w - 1 ∧
      u = ∑ i ∈ Finset.range w, (readBit buf (o + i)).getD 0 * 2 ^ (w - 1 - i) ∧
      u = bigEndian bs / 2 ^ (8 * bs.length - o - w) % 2 ^ w

/-- The same slice is what EXTU and EXTS put into RESULT and what EXTB left-justifies into OUT (R69, R70, R71; 42_raw_extract.md
R78), for a buffer written whole. -/
def Obligations.ResultsAreSlicesOfTheBuffer : Prop :=
  ∀ (s : State) (bs : List Byte) (offset width len : Word) (o w : Nat), bs.length = len.toNat →
    HoldsBytes s.buf bs →
    (IntOperands offset width len o w →
      exec (.extu offset width len) s =
        .next { s with
          result := BitVec.ofNat 64 (bigEndian bs / 2 ^ (8 * bs.length - o - w) % 2 ^ w)
          err := 0#3, busy := false, done := true } ∧
      exec (.exts offset width len) s =
        .next { s with
          result := (BitVec.ofNat w (bigEndian bs / 2 ^ (8 * bs.length - o - w))).signExtend 64
          err := 0#3, busy := false, done := true }) ∧
    (RawOperands offset width len o w →
      ∃ t outs, exec (.extb offset width len) s = .next t ∧ outs.length = (w + 7) / 8 ∧ HoldsBytes t.out outs ∧
        t.outLen.toNat = (w + 7) / 8 ∧
        bigEndian outs = bigEndian bs / 2 ^ (8 * bs.length - o - w) % 2 ^ w * 2 ^ (8 * ((w + 7) / 8) - w))

/-- 41_integer_extract.md R74(a) and (b): the ranges of the results. -/
def Obligations.IntegerResultsLieInRange : Prop :=
  ∀ (s t : State) (offset width len : Word) (o w : Nat), IntOperands offset width len o w →
    (exec (.extu offset width len) s = .next t → t.result.toNat ≤ 2 ^ w - 1) ∧
    (exec (.exts offset width len) s = .next t →
      -(2 : Int) ^ (w - 1) ≤ t.result.toInt ∧ t.result.toInt ≤ 2 ^ (w - 1) - 1)

/-- 41_integer_extract.md R74(c): with a first bit of 0, EXTS does what EXTU does. -/
def Obligations.ExtsEqualsExtuOnSignBitZero : Prop :=
  ∀ (s : State) (offset width len : Word) (o : Nat), offset.toInt = (o : Int) → BitIs s.buf o false →
    exec (.exts offset width len) s = exec (.extu offset width len) s

/-- 41_integer_extract.md R74(d): a field that crosses byte boundaries is the concatenation of the low bits of its first
byte, its middle bytes and the high bits of its last byte, whatever `o mod 8` is. -/
def Obligations.ByteBoundariesAreCrossed : Prop :=
  ∀ (s : State) (offset width len : Word) (o w : Nat) (first last : Byte) (middle : List Byte),
    IntOperands offset width len o w →
    (o + w - 1) / 8 = o / 8 + 1 + middle.length →
    s.buf.read (o / 8) = some first →
    (∀ k, (h : k < middle.length) → s.buf.read (o / 8 + 1 + k) = some middle[k]) →
    s.buf.read ((o + w - 1) / 8) = some last →
    exec (.extu offset width len) s =
      .next { s with
        result := BitVec.ofNat 64
          ((first.toNat % 2 ^ (8 - o % 8) * 2 ^ (8 * middle.length) + bigEndian middle) *
              2 ^ ((o + w - 1) % 8 + 1) +
            last.toNat / 2 ^ (7 - (o + w - 1) % 8))
        err := 0#3, busy := false, done := true }

/-- 41_integer_extract.md R74(e): the round trip with a packer. -/
def Obligations.PackedValueIsReadBack : Prop :=
  ∀ (s : State) (offset width len : Word) (o w v : Nat), IntOperands offset width len o w → v < 2 ^ w →
    (∀ i < w, BitIs s.buf (o + i) (v.testBit (w - 1 - i))) →
    exec (.extu offset width len) s =
      .next { s with result := BitVec.ofNat 64 v, err := 0#3, busy := false, done := true }

/-- 41_integer_extract.md R72: the two ways to the negative value agree, and both are the sign extension, so that the value
EXTS stores is `sext_64_from_w(u)` for every pattern. -/
def Obligations.SignedFormsAgree : Prop :=
  ∀ w u : Nat, 1 ≤ w → w ≤ 64 → u < 2 ^ w →
    (u.testBit (w - 1) = true →
      signedValue u 1 w = -((2 ^ w - 1 - (u : Int)) + 1) ∧
      BitVec.ofInt 64 (signedValue u 1 w) = (BitVec.ofNat w u).signExtend 64) ∧
    (u.testBit (w - 1) = false →
      BitVec.ofInt 64 (signedValue u 0 w) = (BitVec.ofNat w u).signExtend 64)

/-- 42_raw_extract.md R78: the output bytes, as one big-endian integer, are `acc(o, w) * 2^(8n - w)`, and for `w ≤ 64` EXTU's
result times the same power. -/
def Obligations.RawAndIntegerExtractionAgree : Prop :=
  ∀ (s : State) (offset width len : Word) (o w : Nat), RawOperands offset width len o w → FieldWritten s.buf o w →
    ∃ t outs u, exec (.extb offset width len) s = .next t ∧ outs.length = (w + 7) / 8 ∧ HoldsBytes t.out outs ∧
      acc s.buf o w = some u ∧ bigEndian outs = u * 2 ^ (8 * ((w + 7) / 8) - w) ∧
      (w ≤ 64 → ∃ t', exec (.extu offset width len) s = .next t' ∧
        bigEndian outs = t'.result.toNat * 2 ^ (8 * ((w + 7) / 8) - w))

/-- 42_raw_extract.md R75, the corner case `o = 0`, `w = 8 * L`: the whole buffer is copied. -/
def Obligations.WholeBufferIsCopied : Prop :=
  ∀ (s : State) (bs : List Byte) (offset width len : Word), bs.length = len.toNat → HoldsBytes s.buf bs →
    RawOperands offset width len 0 (8 * len.toNat) →
    ∃ t, exec (.extb offset width len) s = .next t ∧ t.outLen = len ∧ HoldsBytes t.out bs

/-- 42_raw_extract.md R76: the output length and its bounds, in the machine's states. -/
def Obligations.OutputLengthIsCeilOfWidth : Prop :=
  ∀ s t : State, Inv s → s.busy = true → extractorIsNext s = true → s.op = 0b10#2 → step s = .next t →
    t.err = 0#3 →
    (t.outLen.toNat : Int) = (s.width.toInt + 7) / 8 ∧ 1 ≤ t.outLen.toNat ∧
      t.outLen.toNat ≤ s.bufLen.toNat ∧ s.bufLen.toNat ≤ Config.bufCap ∧ Config.bufCap = Config.outCap

/-- 20_memory.md R49: two commands with equal OP, operands and buffer bytes below L complete with equal ERR, and if they
succeed with equal results, whatever else their states hold. -/
def Obligations.CommandsArePure : Prop :=
  ∀ s t s' : State, s.op = t.op → s.offset = t.offset → s.width = t.width → s.bufLen = t.bufLen →
    (∀ k < s.bufLen.toNat, s.buf.read k = t.buf.read k) → completeCommand s = .next s' →
    ∃ t', completeCommand t = .next t' ∧ t'.err = s'.err ∧
      (s'.err = 0#3 → s.op = 0b00#2 ∨ s.op = 0b01#2 → t'.result = s'.result) ∧
      (s'.err = 0#3 → s.op = 0b10#2 →
        t'.outLen = s'.outLen ∧ ∀ j < s'.outLen.toNat, t'.out.read j = s'.out.read j)

/-- 20_memory.md R37 and R38: `read_bit` shifts first and masks second, and gives bit `7 - b` of the byte. -/
def Obligations.ReadBitIsTheStreamBit : Prop :=
  ∀ (buf : Memory) (i b : Nat) (byte : Byte), b < 8 → buf.read i = some byte →
    readBit buf (8 * i + b) = some (byte.getLsbD (7 - b)).toNat ∧
    readBit buf (8 * i + b) = some ((byte.toNat >>> (7 - b)) &&& 1)

/-! ## The host port -/

/-- 40_command_cycle.md R61: an accepted START. -/
def Obligations.AcceptedStartSetsBusy : Prop :=
  ∀ (s : State) (v : Word) (rest : List Event), s.pending = .access (.write .word 0x00014 v) :: rest →
    v.getLsbD 0 = true → s.busy = false →
    step s = .next { s with pending := rest, busy := true, done := false, err := 0#3 }

/-- 40_command_cycle.md R62, and 10_state.md R21 for bit 0 = 0: a START that changes no state. -/
def Obligations.StartIsIgnoredWhileBusy : Prop :=
  ∀ (s : State) (v : Word) (rest : List Event), s.pending = .access (.write .word 0x00014 v) :: rest →
    (s.busy = true ∨ v.getLsbD 0 = false) → step s = .next { s with pending := rest }

/-- 10_state.md R16, R17, R18: writes of CTRL, OFFSET and WIDTH while idle, and what they read back. -/
def Obligations.OperandRegistersReadBackAsWritten : Prop :=
  ∀ (s : State) (v : Word) (rest : List Event), s.busy = false →
    step { s with pending := .access (.write .word 0x00000 v) :: rest } =
      .next { s with pending := rest, op := v.extractLsb' 0 2 } ∧
    step { s with pending := .access (.write .word 0x00004 v) :: rest } =
      .next { s with pending := rest, offset := v } ∧
    step { s with pending := .access (.write .word 0x00008 v) :: rest } =
      .next { s with pending := rest, width := v } ∧
    Host.Core.run core 2 { s with
        pending := .access (.write .word 0x00000 v) :: .access (.read .word 0x00000) :: rest } =
      .next { s with
        pending := rest, op := v.extractLsb' 0 2, replies := .word (v &&& 0x00000003#32) :: s.replies } ∧
    Host.Core.run core 2 { s with
        pending := .access (.write .word 0x00004 v) :: .access (.read .word 0x00004) :: rest } =
      .next { s with pending := rest, offset := v, replies := .word v :: s.replies } ∧
    Host.Core.run core 2 { s with
        pending := .access (.write .word 0x00008 v) :: .access (.read .word 0x00008) :: rest } =
      .next { s with pending := rest, width := v, replies := .word v :: s.replies }

/-- 10_state.md R19: BUF_LEN takes a value up to BUF_CAP and ignores a larger one. -/
def Obligations.BufLenTakesOnlyLegalValues : Prop :=
  ∀ (s : State) (v : Word) (rest : List Event), s.busy = false →
    s.pending = .access (.write .word 0x0000C v) :: rest →
    (v.toNat ≤ Config.bufCap → step s = .next { s with pending := rest, bufLen := v }) ∧
    (Config.bufCap < v.toNat → step s = .next { s with pending := rest })

/-- 10_state.md R28: a write to the BUF window sets that byte and no other, and an 8-bit read returns it. -/
def Obligations.BufferByteIsWrittenAndReadBack : Prop :=
  ∀ (s : State) (i : Nat) (v : Word) (rest : List Event), s.busy = false → i < Config.bufCap →
    ∃ m : Memory,
      step { s with pending := .access (.write .byte (0x10000 + i) v) :: rest } =
        .next { s with pending := rest, buf := m } ∧
      m.read i = some (v.extractLsb' 0 8) ∧ (∀ k, k ≠ i → m.read k = s.buf.read k) ∧
      Host.Core.run core 2 { s with
          pending := .access (.write .byte (0x10000 + i) v) :: .access (.read .byte (0x10000 + i)) :: rest } =
        .next { s with pending := rest, buf := m, replies := .byte (v.extractLsb' 0 8) :: s.replies }

/-- 20_memory.md R44, its last point: writes to STATUS, RESULT_LO, RESULT_HI, OUT_LEN, the OUT window and the reserved
ranges have no effect, idle or busy (that the BUF window past BUF_CAP is reserved while busy too is log 6). -/
def Obligations.ReadOnlyLocationsIgnoreWrites : Prop :=
  ∀ (s : State) (v : Word) (rest : List Event) (off : Nat),
    ((off = 0x00010 ∨ off = 0x00018 ∨ off = 0x0001C ∨ off = 0x00020 ∨
        (0x00024 ≤ off ∧ off < 0x10000 ∧ off % 4 = 0)) →
      s.pending = .access (.write .word off v) :: rest → step s = .next { s with pending := rest }) ∧
    (((0x20000 ≤ off ∧ off < 0x30000) ∨ (0x10000 + Config.bufCap ≤ off ∧ off < 0x20000)) →
      s.pending = .access (.write .byte off v) :: rest → step s = .next { s with pending := rest })

/-- 70_reset_and_hazards.md R97 (93_implementation_defined.md I3, treatment `refuse`): a write to an input of the
command in flight is no move of the model (its refusal's name, and that it covers every value written, are log 7). -/
def Obligations.InputWritesWhileBusyAreRefused : Prop :=
  ∀ (s : State) (v : Word) (rest : List Event) (off : Nat), s.busy = true →
    ((off = 0x00000 ∨ off = 0x00004 ∨ off = 0x00008 ∨ off = 0x0000C) →
      s.pending = .access (.write .word off v) :: rest → step s = .refused .inputWriteWhileBusy) ∧
    (0x10000 ≤ off → off < 0x10000 + Config.bufCap →
      s.pending = .access (.write .byte off v) :: rest → step s = .refused .inputWriteWhileBusy)

/-- 10_state.md R20: STATUS reads BUSY in bit 0, DONE in bit 1, ERR in bits [4:2] and 0 above; it is read-only. -/
def Obligations.StatusReadsItsFlags : Prop :=
  ∀ (s : State) (rest : List Event), s.pending = .access (.read .word 0x00010) :: rest →
    ∃ v : Word, step s = .next { s with pending := rest, replies := .word v :: s.replies } ∧
      v.getLsbD 0 = s.busy ∧ v.getLsbD 1 = s.done ∧ v.extractLsb' 2 3 = s.err ∧ v.extractLsb' 5 27 = 0#27

/-- What the other registers and the windows read while idle (10_state.md R21, R22, R23, R28, R29): START 0, the halves of RESULT,
OUT_LEN, the BUF bytes written and the OUT bytes of the last EXTB. -/
def Obligations.IdleReadsReturnTheState : Prop :=
  ∀ (s : State) (rest : List Event), s.busy = false →
    step { s with pending := .access (.read .word 0x0000C) :: rest } =
      .next { s with pending := rest, replies := .word s.bufLen :: s.replies } ∧
    step { s with pending := .access (.read .word 0x00014) :: rest } =
      .next { s with pending := rest, replies := .word 0x00000000#32 :: s.replies } ∧
    step { s with pending := .access (.read .word 0x00018) :: rest } =
      .next { s with pending := rest, replies := .word (s.result.extractLsb' 0 32) :: s.replies } ∧
    step { s with pending := .access (.read .word 0x0001C) :: rest } =
      .next { s with pending := rest, replies := .word (s.result.extractLsb' 32 32) :: s.replies } ∧
    step { s with pending := .access (.read .word 0x00020) :: rest } =
      .next { s with pending := rest, replies := .word s.outLen :: s.replies } ∧
    (∀ i byte, i < Config.bufCap → s.buf.read i = some byte →
      step { s with pending := .access (.read .byte (0x10000 + i)) :: rest } =
        .next { s with pending := rest, replies := .byte byte :: s.replies }) ∧
    (∀ j byte, j < Config.outCap → s.out.read j = some byte →
      step { s with pending := .access (.read .byte (0x20000 + j)) :: rest } =
        .next { s with pending := rest, replies := .byte byte :: s.replies })

/-- 70_reset_and_hazards.md R98: reads of the results while BUSY = 1 complete with some value, whatever it is, and a draw
(log 3); reads of the other registers and of written BUF bytes give their current values. -/
def Obligations.BusyReadsComplete : Prop :=
  ∀ (s : State) (rest : List Event), s.busy = true →
    (∀ off, off = 0x00018 ∨ off = 0x0001C ∨ off = 0x00020 →
      ∃ v : Word, step { s with pending := .access (.read .word off) :: rest } =
        .next { s with pending := rest, replies := .word v :: s.replies, draws := s.draws + 1 }) ∧
    (∀ j < Config.outCap,
      ∃ v : Byte, step { s with pending := .access (.read .byte (0x20000 + j)) :: rest } =
        .next { s with pending := rest, replies := .byte v :: s.replies, draws := s.draws + 1 }) ∧
    step { s with pending := .access (.read .word 0x00000) :: rest } =
      .next { s with pending := rest, replies := .word (s.op.setWidth 32) :: s.replies } ∧
    step { s with pending := .access (.read .word 0x00004) :: rest } =
      .next { s with pending := rest, replies := .word s.offset :: s.replies } ∧
    step { s with pending := .access (.read .word 0x00008) :: rest } =
      .next { s with pending := rest, replies := .word s.width :: s.replies } ∧
    step { s with pending := .access (.read .word 0x0000C) :: rest } =
      .next { s with pending := rest, replies := .word s.bufLen :: s.replies } ∧
    (∀ i byte, i < Config.bufCap → s.buf.read i = some byte →
      step { s with pending := .access (.read .byte (0x10000 + i)) :: rest } =
        .next { s with pending := rest, replies := .byte byte :: s.replies })

/-- 20_memory.md R44: a read changes nothing of BFX's state, and while idle the same read twice gives the same reply
twice. That this holds of the UNSPECIFIED OUT bytes and the unwritten BUF bytes too is the model's reading of R44 beside R95
(log 4, log 5). -/
def Obligations.ReadsHaveNoSideEffect : Prop :=
  (∀ (s t : State) (size : AccessSize) (off : Nat) (rest : List Event),
    s.pending = .access (.read size off) :: rest → step s = .next t →
    t = { s with pending := rest, replies := t.replies, draws := t.draws }) ∧
  (∀ (s t : State) (size : AccessSize) (off : Nat) (rest : List Event), s.busy = false →
    s.pending = .access (.read size off) :: .access (.read size off) :: rest →
    Host.Core.run core 2 s = .next t → ∃ r, t.replies = r :: r :: s.replies)

/-- 10_state.md R30: reserved addresses read 0 and ignore writes, and the reserved bits of CTRL and STATUS read 0 and
ignore writes, idle or busy (log 6). -/
def Obligations.ReservedSpaceReadsZero : Prop :=
  ∀ (s : State) (v : Word) (rest : List Event),
    (∀ off, 0x00024 ≤ off → off < 0x10000 → off % 4 = 0 →
      step { s with pending := .access (.read .word off) :: rest } =
        .next { s with pending := rest, replies := .word 0#32 :: s.replies } ∧
      step { s with pending := .access (.write .word off v) :: rest } = .next { s with pending := rest }) ∧
    (∀ off, (0x10000 + Config.bufCap ≤ off ∧ off < 0x20000) ∨ (0x20000 + Config.outCap ≤ off ∧ off < 0x30000) →
      step { s with pending := .access (.read .byte off) :: rest } =
        .next { s with pending := rest, replies := .byte 0#8 :: s.replies } ∧
      step { s with pending := .access (.write .byte off v) :: rest } = .next { s with pending := rest }) ∧
    (∃ c : Word, c.extractLsb' 2 30 = 0#30 ∧
      step { s with pending := .access (.read .word 0x00000) :: rest } =
        .next { s with pending := rest, replies := .word c :: s.replies }) ∧
    (∃ c : Word, c.extractLsb' 5 27 = 0#27 ∧
      step { s with pending := .access (.read .word 0x00010) :: rest } =
        .next { s with pending := rest, replies := .word c :: s.replies }) ∧
    (s.busy = false →
      step { s with pending := .access (.write .word 0x00000 v) :: rest } =
        step { s with pending := .access (.write .word 0x00000 (v &&& 0x00000003#32)) :: rest }) ∧
    step { s with pending := .access (.write .word 0x00010 v) :: rest } = .next { s with pending := rest }

/-- 20_memory.md R43 and 10_state.md R15: only aligned 32-bit accesses below 0x10000 and 8-bit accesses in the windows are
moves of the model; any other inside BFX is refused, and an offset of 0x30000 or above is not BFX's (log 7). -/
def Obligations.OtherAccessFormsAreNoMoves : Prop :=
  ∀ (s : State) (a : Access) (rest : List Event), s.pending = .access a :: rest →
    (accessOff a < 0x10000 → (accessSize a ≠ .word ∨ accessOff a % 4 ≠ 0) → step s = .refused .accessForm) ∧
    (0x10000 ≤ accessOff a → accessOff a < 0x30000 → accessSize a ≠ .byte → step s = .refused .accessForm) ∧
    (0x30000 ≤ accessOff a → step s = .fault .outsideBfx) ∧
    (step s = .refused .accessForm →
      (accessOff a < 0x10000 ∧ (accessSize a ≠ .word ∨ accessOff a % 4 ≠ 0)) ∨
      (0x10000 ≤ accessOff a ∧ accessOff a < 0x30000 ∧ accessSize a ≠ .byte))

/-- 10_state.md R15: an access reaches the offset its platform address has from BFX_BASE, wherever the base is. -/
def Obligations.AddressesAreRelativeToTheBase : Prop :=
  ∀ a : Access, (accessOff a < 0x30000 ↔ offsetOfAddress (accessAddress a) = some (accessOff a)) ∧
    (0x30000 ≤ accessOff a → offsetOfAddress (accessAddress a) = none)

/-! ## Reset -/

/-- 10_state.md R31: what reset leaves. BUF and OUT list nothing: they are UNSPECIFIED. -/
def Obligations.ResetStateIsAllZeroAndIdle : Prop :=
  State.reset.op = 0b00#2 ∧ State.reset.offset = 0x00000000#32 ∧ State.reset.width = 0x00000000#32 ∧
  State.reset.bufLen = 0x00000000#32 ∧ State.reset.busy = false ∧ State.reset.done = false ∧
  State.reset.err = 0b000#3 ∧ State.reset.result = 0x0000000000000000#64 ∧ State.reset.outLen = 0x00000000#32 ∧
  (∀ i, State.reset.buf.read i = none) ∧ (∀ j, State.reset.out.read j = none)

/-- 70_reset_and_hazards.md R93 and R94: the reset input gives every piece of state its reset value, whatever it held, and
abandons a command in flight without a result. -/
def Obligations.ResetInputRestoresResetValues : Prop :=
  ∀ (s : State) (rest : List Event), s.pending = .reset :: rest →
    ∃ t : State, step s = .next t ∧
      t.op = 0b00#2 ∧ t.offset = 0x00000000#32 ∧ t.width = 0x00000000#32 ∧ t.bufLen = 0x00000000#32 ∧
      t.busy = false ∧ t.done = false ∧ t.err = 0b000#3 ∧ t.result = 0x0000000000000000#64 ∧
      t.outLen = 0x00000000#32 ∧ (∀ i, t.buf.read i = none) ∧ (∀ j, t.out.read j = none)

/-! ## The whole machine -/

/-- The invariant holds at reset. -/
def Obligations.ResetSatisfiesInvariant : Prop := Inv State.reset

/-- Every step keeps the invariant: BUF in canonical form within BUF_CAP; OUT exactly the bytes below OUT_LEN, within OUT_CAP;
BUF_LEN legal; BUSY and DONE never both 1; ERR at most 4, and 0 until a command has completed (10_state.md R19, R20, R27, R29;
42_raw_extract.md R76); and the model's own counter of draws is past those behind the UNSPECIFIED bytes (log 10). -/
def Obligations.StepKeepsInvariant : Prop := ∀ s t : State, Inv s → step s = .next t → Inv t

/-- 40_command_cycle.md R63: nothing the host does within its duties prevents the completion of the command in flight or changes its
outcome. Whatever accesses are still to come, the command completes (or stops on an unwritten byte) with what it would give
now (the events' list is log 1; that a write past BUF_CAP keeps the host's duties is log 6). -/
def Obligations.CommandInFlightCompletes : Prop :=
  ∀ s : State, s.busy = true → (∀ e ∈ s.pending, harmless e = true) →
    ∃ n, n ≤ s.pending.length + 1 ∧
      ((∃ t u, Host.Core.run core n s = .next t ∧ completeCommand s = .next u ∧ t.busy = false ∧ t.done = true ∧
          t.err = u.err ∧ t.result = u.result ∧ t.outLen = u.outLen ∧ t.out = u.out) ∨
        (Host.Core.run core n s = .fault .unwrittenBufferByte ∧ completeCommand s = .fault .unwrittenBufferByte))

/-- The machine stops nowhere else (60_exceptions.md R87): a step is refused only for a host access that breaks a duty (R43, R97), and
faults only on an unwritten byte of the command in flight or on an access that is not BFX's. That a write past BUF_CAP while BUSY = 1
keeps the host's duties, and so has a next state, is the model's reading of R30 beside R97 (log 6); that a broken duty is refused
under a name of its own, and that an access at 0x30000 or above is the fault outsideBfx, is the model's choice (log 7). -/
def Obligations.StepStopsOnlyOnBrokenDutiesAndUnwrittenBytes : Prop :=
  ∀ s : State,
    (∀ r, step s = .refused r →
      ∃ a rest, s.pending = .access a :: rest ∧ dutyKept s.busy a = false ∧ accessOff a < 0x30000) ∧
    (∀ f, step s = .fault f →
      (f = .unwrittenBufferByte ∧ s.busy = true ∧ extractorIsNext s = true) ∨
      (f = .outsideBfx ∧ ∃ a rest, s.pending = .access a :: rest ∧ 0x30000 ≤ accessOff a)) ∧
    (∀ a rest, s.pending = .access a :: rest → dutyKept s.busy a = true → ∃ t, step s = .next t)

/-- 70_reset_and_hazards.md R100: RESULT holds its value until a successful EXTU or EXTS, OUT_LEN and the OUT bytes below it until a
successful EXTB, a completed command's ERR until the next accepted START; or a reset. -/
def Obligations.ResultsPersist : Prop :=
  ∀ s t : State, step s = .next t → (∀ rest, s.pending ≠ .reset :: rest) →
    (t.result ≠ s.result →
      s.busy = true ∧ extractorIsNext s = true ∧ (s.op = 0b00#2 ∨ s.op = 0b01#2) ∧ t.err = 0#3) ∧
    (t.outLen ≠ s.outLen ∨ (∃ j < s.outLen.toNat, outByte t j ≠ outByte s j) →
      s.busy = true ∧ extractorIsNext s = true ∧ s.op = 0b10#2 ∧ t.err = 0#3) ∧
    (s.busy = false → t.err ≠ s.err →
      ∃ v rest, s.pending = .access (.write .word 0x00014 v) :: rest ∧ v.getLsbD 0 = true)

/-- 20_memory.md R41 with R47: the extractor's turn writes neither BUF nor BUF_LEN, nor the other inputs. -/
def Obligations.ExtractorNeverWritesInputs : Prop :=
  ∀ s t : State, extractorIsNext s = true → step s = .next t →
    t.buf = s.buf ∧ t.bufLen = s.bufLen ∧ t.op = s.op ∧ t.offset = s.offset ∧ t.width = s.width

/-- 20_memory.md R44: a write to START with bit 0 = 1 while idle is the only step that starts a command; and only the
extractor's turn or a reset ends one (40_command_cycle.md R63, 70_reset_and_hazards.md R94). -/
def Obligations.OnlyStartBeginsACommand : Prop :=
  ∀ s t : State, step s = .next t →
    (s.busy = false → t.busy = true →
      ∃ v rest, s.pending = .access (.write .word 0x00014 v) :: rest ∧ v.getLsbD 0 = true) ∧
    (s.busy = true → t.busy = false → extractorIsNext s = true ∨ ∃ rest, s.pending = .reset :: rest)

/-- 70_reset_and_hazards.md R102 with 60_exceptions.md R92: a run that has ended (no bus transaction is left and BUSY = 0) stays
ended, and until a reset arrives nothing changes but the list of events (log 1, log 2); a state with a command in flight, or
with a bus transaction still to come, is not final. -/
def Obligations.EndedRunStaysAsItIs : Prop :=
  ∀ s : State,
    (runEnded s = true → ∀ n, ∃ t, Host.Core.run core n s = .next t ∧ runEnded t = true ∧
      (Event.reset ∉ s.pending → t = { s with pending := s.pending.drop n })) ∧
    (s.busy = true → runEnded s = false) ∧
    (∀ a, Event.access a ∈ s.pending → runEnded s = false)

/-- 70_reset_and_hazards.md R99: a STATUS read right after a START may find the command in flight or completed; the model has
both runs (log 1). -/
def Obligations.StatusReadAfterStartMayFindEither : Prop :=
  ∀ (s u : State) (rest : List Event), s.busy = false →
    completeCommand { s with busy := true, done := false, err := 0#3, pending := .access (.read .word 0x00010) :: rest } =
      .next u →
    (∃ (t : State) (v : Word), Host.Core.run core 2 { s with
        pending := .access (.write .word 0x00014 1#32) :: .access (.read .word 0x00010) :: rest } = .next t ∧
      t.replies = .word v :: s.replies ∧ v.getLsbD 0 = true) ∧
    (∃ (t : State) (v : Word), Host.Core.run core 3 { s with
        pending := .access (.write .word 0x00014 1#32) :: .extractor :: .access (.read .word 0x00010) :: rest } =
        .next t ∧
      t.replies = .word v :: s.replies ∧ v.getLsbD 0 = false ∧ v.getLsbD 1 = true)

/-! ## The host's notation -/

/-- 30_encoding.md R57: a decimal literal is accepted exactly in `[-2^31, 2^31 - 1]`, and then stands for its value; a hex literal is
accepted with at most 8 digits (and at least one, log 15). -/
def Obligations.LiteralsAreRangeChecked : Prop :=
  (∀ v : Int, -2 ^ 31 ≤ v → v ≤ 2 ^ 31 - 1 → ∃ r, literalValue (.dec v) = some r ∧ r.toInt = v) ∧
  (∀ v : Int, (v < -2 ^ 31 ∨ 2 ^ 31 - 1 < v) → literalValue (.dec v) = none) ∧
  (∀ ds, 1 ≤ ds.length → ds.length ≤ 8 →
    ∃ r, literalValue (.hex ds) = some r ∧ r.toNat = ds.foldl (fun n d => 16 * n + d.val) 0) ∧
  (∀ ds, 8 < ds.length → literalValue (.hex ds) = none)

/-- 30_encoding.md R59: from an idle machine the four writes of `EXTx o, w` set OFFSET, WIDTH and CTRL.OP and start the
command. -/
def Obligations.CommandExpansionStartsTheCommand : Prop :=
  ∀ (s : State) (operation : Operation) (o w : Word) (rest : List Event), s.busy = false →
    Host.Core.run core 4 { s with pending := commandEvents operation o w ++ rest } =
      .next { s with
        offset := o, width := w, op := operation.code, busy := true, done := false, err := 0#3, pending := rest }

/-- 30_encoding.md R59: LOADBUF from an idle machine, with `n ≤ BUF_CAP`, leaves BUF holding the bytes at 0 to n-1 and every other byte as it
was, and BUF_LEN = n. -/
def Obligations.LoadbufExpansionLoadsTheBuffer : Prop :=
  ∀ (s : State) (bytes : List Byte) (rest : List Event), s.busy = false → bytes.length ≤ Config.bufCap →
    ∃ m : Memory,
      Host.Core.run core (bytes.length + 1) { s with pending := loadEvents bytes ++ rest } =
        .next { s with buf := m, bufLen := BitVec.ofNat 32 bytes.length, pending := rest } ∧
      HoldsBytes m bytes ∧ ∀ k, bytes.length ≤ k → m.read k = s.buf.read k

/-- 30_encoding.md R59: POLL reads BUSY = 1 until the command has completed, and ends with BUSY = 0 and DONE = 1. -/
def Obligations.PollEndsWithDone : Prop :=
  ∀ (s u : State) (busyPolls : Nat) (rest : List Event), s.busy = true → completeCommand s = .next u →
    ∃ (t : State) (busyReads : List Reply) (v : Word),
      Host.Core.run core (busyPolls + 2) { s with pending := pollEvents busyPolls ++ rest } = .next t ∧
      t.pending = rest ∧ t.replies = .word v :: busyReads ++ s.replies ∧ busyReads.length = busyPolls ∧
      (∀ r ∈ busyReads, ∃ b, r = .word b ∧ pollAgain b = true) ∧
      pollAgain v = false ∧ v.getLsbD 1 = true ∧ geterrValue v = u.err

/-- 30_encoding.md R59: GETRES on an idle machine reads the whole of RESULT. -/
def Obligations.GetresReadsTheResult : Prop :=
  ∀ (s : State) (rest : List Event), s.busy = false →
    ∃ lo hi : Word,
      Host.Core.run core 2 { s with
          pending := .access (.read .word 0x00018) :: .access (.read .word 0x0001C) :: rest } =
        .next { s with pending := rest, replies := .word hi :: .word lo :: s.replies } ∧
      getresValue lo hi = s.result.toNat

/-- 30_encoding.md R59: GETOUT on an idle machine reads OUT_LEN and then the bytes of the last EXTB in their order. -/
def Obligations.GetoutReadsTheOutput : Prop :=
  ∀ (s : State) (outs : List Byte) (rest : List Event), s.busy = false → HoldsBytes s.out outs →
    s.outLen.toNat = outs.length → outs.length ≤ Config.outCap →
    Host.Core.run core (outs.length + 1) { s with
        pending := .access (.read .word 0x00020) :: outReads outs.length ++ rest } =
      .next { s with
        pending := rest, replies := (outs.map Reply.byte).reverse ++ .word s.outLen :: s.replies }

/-! ## The free values -/

/-- Each successful EXTB, and each reset input, draws the value behind the UNSPECIFIED bytes afresh: the draw is one that no
UNSPECIFIED byte had before, so nothing relates the bytes' values to what they were (10_state.md R29, R31;
70_reset_and_hazards.md R94, R95; 92_eei_decisions.md D18; the draw counters are the model's own, log 4, log 10, log 17). -/
def Obligations.UnspecifiedBytesAreDrawnAfresh : Prop :=
  ∀ s t : State, Inv s → step s = .next t →
    ((∃ rest, s.pending = .reset :: rest) →
      s.outDraw < t.outDraw ∧ s.bufDraw < t.outDraw ∧ s.outDraw < t.bufDraw ∧ s.bufDraw < t.bufDraw) ∧
    (s.busy = true → extractorIsNext s = true → s.op = 0b10#2 → t.err = 0#3 →
      s.outDraw < t.outDraw ∧ s.bufDraw < t.outDraw ∧ t.bufDraw = s.bufDraw)
end

