-- ==== Sys2Proof/Laws/State.lean ====
section
/-! SUPPORT. The fields of the state after each named update: one lemma per field, true by `rfl`. -/

namespace Sys2Proof.Machine

variable (s : State)

@[simp] theorem onStart_op : (onStart s).op = s.op := rfl
@[simp] theorem onStart_offset : (onStart s).offset = s.offset := rfl
@[simp] theorem onStart_width : (onStart s).width = s.width := rfl
@[simp] theorem onStart_bufLen : (onStart s).bufLen = s.bufLen := rfl
@[simp] theorem onStart_busy : (onStart s).busy = true := rfl
@[simp] theorem onStart_done : (onStart s).done = false := rfl
@[simp] theorem onStart_err : (onStart s).err = 0#3 := rfl
@[simp] theorem onStart_result : (onStart s).result = s.result := rfl
@[simp] theorem onStart_outLen : (onStart s).outLen = s.outLen := rfl
@[simp] theorem onStart_buf : (onStart s).buf = s.buf := rfl
@[simp] theorem onStart_out : (onStart s).out = s.out := rfl
@[simp] theorem onStart_draws : (onStart s).draws = s.draws := rfl
@[simp] theorem onStart_bufDraw : (onStart s).bufDraw = s.bufDraw := rfl
@[simp] theorem onStart_outDraw : (onStart s).outDraw = s.outDraw := rfl
@[simp] theorem onStart_pending : (onStart s).pending = s.pending := rfl
@[simp] theorem onStart_replies : (onStart s).replies = s.replies := rfl

@[simp] theorem finish_op : (finish s).op = s.op := rfl
@[simp] theorem finish_offset : (finish s).offset = s.offset := rfl
@[simp] theorem finish_width : (finish s).width = s.width := rfl
@[simp] theorem finish_bufLen : (finish s).bufLen = s.bufLen := rfl
@[simp] theorem finish_busy : (finish s).busy = false := rfl
@[simp] theorem finish_done : (finish s).done = true := rfl
@[simp] theorem finish_err : (finish s).err = s.err := rfl
@[simp] theorem finish_result : (finish s).result = s.result := rfl
@[simp] theorem finish_outLen : (finish s).outLen = s.outLen := rfl
@[simp] theorem finish_buf : (finish s).buf = s.buf := rfl
@[simp] theorem finish_out : (finish s).out = s.out := rfl
@[simp] theorem finish_draws : (finish s).draws = s.draws := rfl
@[simp] theorem finish_bufDraw : (finish s).bufDraw = s.bufDraw := rfl
@[simp] theorem finish_outDraw : (finish s).outDraw = s.outDraw := rfl
@[simp] theorem finish_pending : (finish s).pending = s.pending := rfl
@[simp] theorem finish_replies : (finish s).replies = s.replies := rfl

@[simp] theorem succeed_op : (succeed s).op = s.op := rfl
@[simp] theorem succeed_offset : (succeed s).offset = s.offset := rfl
@[simp] theorem succeed_width : (succeed s).width = s.width := rfl
@[simp] theorem succeed_bufLen : (succeed s).bufLen = s.bufLen := rfl
@[simp] theorem succeed_busy : (succeed s).busy = false := rfl
@[simp] theorem succeed_done : (succeed s).done = true := rfl
@[simp] theorem succeed_err : (succeed s).err = 0#3 := rfl
@[simp] theorem succeed_result : (succeed s).result = s.result := rfl
@[simp] theorem succeed_outLen : (succeed s).outLen = s.outLen := rfl
@[simp] theorem succeed_buf : (succeed s).buf = s.buf := rfl
@[simp] theorem succeed_out : (succeed s).out = s.out := rfl
@[simp] theorem succeed_draws : (succeed s).draws = s.draws := rfl
@[simp] theorem succeed_bufDraw : (succeed s).bufDraw = s.bufDraw := rfl
@[simp] theorem succeed_outDraw : (succeed s).outDraw = s.outDraw := rfl
@[simp] theorem succeed_pending : (succeed s).pending = s.pending := rfl
@[simp] theorem succeed_replies : (succeed s).replies = s.replies := rfl

@[simp] theorem errorCompletion_op (e : ErrKind) : (errorCompletion e s).op = s.op := rfl
@[simp] theorem errorCompletion_offset (e : ErrKind) : (errorCompletion e s).offset = s.offset := rfl
@[simp] theorem errorCompletion_width (e : ErrKind) : (errorCompletion e s).width = s.width := rfl
@[simp] theorem errorCompletion_bufLen (e : ErrKind) : (errorCompletion e s).bufLen = s.bufLen := rfl
@[simp] theorem errorCompletion_busy (e : ErrKind) : (errorCompletion e s).busy = false := rfl
@[simp] theorem errorCompletion_done (e : ErrKind) : (errorCompletion e s).done = true := rfl
@[simp] theorem errorCompletion_err (e : ErrKind) : (errorCompletion e s).err = errCode e := rfl
@[simp] theorem errorCompletion_result (e : ErrKind) : (errorCompletion e s).result = s.result := rfl
@[simp] theorem errorCompletion_outLen (e : ErrKind) : (errorCompletion e s).outLen = s.outLen := rfl
@[simp] theorem errorCompletion_buf (e : ErrKind) : (errorCompletion e s).buf = s.buf := rfl
@[simp] theorem errorCompletion_out (e : ErrKind) : (errorCompletion e s).out = s.out := rfl
@[simp] theorem errorCompletion_draws (e : ErrKind) : (errorCompletion e s).draws = s.draws := rfl
@[simp] theorem errorCompletion_bufDraw (e : ErrKind) : (errorCompletion e s).bufDraw = s.bufDraw := rfl
@[simp] theorem errorCompletion_outDraw (e : ErrKind) : (errorCompletion e s).outDraw = s.outDraw := rfl
@[simp] theorem errorCompletion_pending (e : ErrKind) : (errorCompletion e s).pending = s.pending := rfl
@[simp] theorem errorCompletion_replies (e : ErrKind) : (errorCompletion e s).replies = s.replies := rfl

@[simp] theorem setResult_op (r : DWord) : (setResult r s).op = s.op := rfl
@[simp] theorem setResult_offset (r : DWord) : (setResult r s).offset = s.offset := rfl
@[simp] theorem setResult_width (r : DWord) : (setResult r s).width = s.width := rfl
@[simp] theorem setResult_bufLen (r : DWord) : (setResult r s).bufLen = s.bufLen := rfl
@[simp] theorem setResult_busy (r : DWord) : (setResult r s).busy = s.busy := rfl
@[simp] theorem setResult_done (r : DWord) : (setResult r s).done = s.done := rfl
@[simp] theorem setResult_err (r : DWord) : (setResult r s).err = s.err := rfl
@[simp] theorem setResult_result (r : DWord) : (setResult r s).result = r := rfl
@[simp] theorem setResult_outLen (r : DWord) : (setResult r s).outLen = s.outLen := rfl
@[simp] theorem setResult_buf (r : DWord) : (setResult r s).buf = s.buf := rfl
@[simp] theorem setResult_out (r : DWord) : (setResult r s).out = s.out := rfl
@[simp] theorem setResult_draws (r : DWord) : (setResult r s).draws = s.draws := rfl
@[simp] theorem setResult_bufDraw (r : DWord) : (setResult r s).bufDraw = s.bufDraw := rfl
@[simp] theorem setResult_outDraw (r : DWord) : (setResult r s).outDraw = s.outDraw := rfl
@[simp] theorem setResult_pending (r : DWord) : (setResult r s).pending = s.pending := rfl
@[simp] theorem setResult_replies (r : DWord) : (setResult r s).replies = s.replies := rfl

@[simp] theorem setOut_op (bytes : List Byte) : (setOut bytes s).op = s.op := rfl
@[simp] theorem setOut_offset (bytes : List Byte) : (setOut bytes s).offset = s.offset := rfl
@[simp] theorem setOut_width (bytes : List Byte) : (setOut bytes s).width = s.width := rfl
@[simp] theorem setOut_bufLen (bytes : List Byte) : (setOut bytes s).bufLen = s.bufLen := rfl
@[simp] theorem setOut_busy (bytes : List Byte) : (setOut bytes s).busy = s.busy := rfl
@[simp] theorem setOut_done (bytes : List Byte) : (setOut bytes s).done = s.done := rfl
@[simp] theorem setOut_err (bytes : List Byte) : (setOut bytes s).err = s.err := rfl
@[simp] theorem setOut_result (bytes : List Byte) : (setOut bytes s).result = s.result := rfl
@[simp] theorem setOut_outLen (bytes : List Byte) : (setOut bytes s).outLen = BitVec.ofNat 32 bytes.length := rfl
@[simp] theorem setOut_buf (bytes : List Byte) : (setOut bytes s).buf = s.buf := rfl
@[simp] theorem setOut_out (bytes : List Byte) : (setOut bytes s).out = Memory.writeFrom [] 0 bytes := rfl
@[simp] theorem setOut_draws (bytes : List Byte) : (setOut bytes s).draws = s.draws + 1 := rfl
@[simp] theorem setOut_bufDraw (bytes : List Byte) : (setOut bytes s).bufDraw = s.bufDraw := rfl
@[simp] theorem setOut_outDraw (bytes : List Byte) : (setOut bytes s).outDraw = s.draws := rfl
@[simp] theorem setOut_pending (bytes : List Byte) : (setOut bytes s).pending = s.pending := rfl
@[simp] theorem setOut_replies (bytes : List Byte) : (setOut bytes s).replies = s.replies := rfl

@[simp] theorem replyWord_op (v : Word) : (replyWord v s).op = s.op := rfl
@[simp] theorem replyWord_offset (v : Word) : (replyWord v s).offset = s.offset := rfl
@[simp] theorem replyWord_width (v : Word) : (replyWord v s).width = s.width := rfl
@[simp] theorem replyWord_bufLen (v : Word) : (replyWord v s).bufLen = s.bufLen := rfl
@[simp] theorem replyWord_busy (v : Word) : (replyWord v s).busy = s.busy := rfl
@[simp] theorem replyWord_done (v : Word) : (replyWord v s).done = s.done := rfl
@[simp] theorem replyWord_err (v : Word) : (replyWord v s).err = s.err := rfl
@[simp] theorem replyWord_result (v : Word) : (replyWord v s).result = s.result := rfl
@[simp] theorem replyWord_outLen (v : Word) : (replyWord v s).outLen = s.outLen := rfl
@[simp] theorem replyWord_buf (v : Word) : (replyWord v s).buf = s.buf := rfl
@[simp] theorem replyWord_out (v : Word) : (replyWord v s).out = s.out := rfl
@[simp] theorem replyWord_draws (v : Word) : (replyWord v s).draws = s.draws := rfl
@[simp] theorem replyWord_bufDraw (v : Word) : (replyWord v s).bufDraw = s.bufDraw := rfl
@[simp] theorem replyWord_outDraw (v : Word) : (replyWord v s).outDraw = s.outDraw := rfl
@[simp] theorem replyWord_pending (v : Word) : (replyWord v s).pending = s.pending := rfl
@[simp] theorem replyWord_replies (v : Word) : (replyWord v s).replies = .word v :: s.replies := rfl

@[simp] theorem replyByte_op (v : Byte) : (replyByte v s).op = s.op := rfl
@[simp] theorem replyByte_offset (v : Byte) : (replyByte v s).offset = s.offset := rfl
@[simp] theorem replyByte_width (v : Byte) : (replyByte v s).width = s.width := rfl
@[simp] theorem replyByte_bufLen (v : Byte) : (replyByte v s).bufLen = s.bufLen := rfl
@[simp] theorem replyByte_busy (v : Byte) : (replyByte v s).busy = s.busy := rfl
@[simp] theorem replyByte_done (v : Byte) : (replyByte v s).done = s.done := rfl
@[simp] theorem replyByte_err (v : Byte) : (replyByte v s).err = s.err := rfl
@[simp] theorem replyByte_result (v : Byte) : (replyByte v s).result = s.result := rfl
@[simp] theorem replyByte_outLen (v : Byte) : (replyByte v s).outLen = s.outLen := rfl
@[simp] theorem replyByte_buf (v : Byte) : (replyByte v s).buf = s.buf := rfl
@[simp] theorem replyByte_out (v : Byte) : (replyByte v s).out = s.out := rfl
@[simp] theorem replyByte_draws (v : Byte) : (replyByte v s).draws = s.draws := rfl
@[simp] theorem replyByte_bufDraw (v : Byte) : (replyByte v s).bufDraw = s.bufDraw := rfl
@[simp] theorem replyByte_outDraw (v : Byte) : (replyByte v s).outDraw = s.outDraw := rfl
@[simp] theorem replyByte_pending (v : Byte) : (replyByte v s).pending = s.pending := rfl
@[simp] theorem replyByte_replies (v : Byte) : (replyByte v s).replies = .byte v :: s.replies := rfl

@[simp] theorem nextDraw_op : (nextDraw s).op = s.op := rfl
@[simp] theorem nextDraw_offset : (nextDraw s).offset = s.offset := rfl
@[simp] theorem nextDraw_width : (nextDraw s).width = s.width := rfl
@[simp] theorem nextDraw_bufLen : (nextDraw s).bufLen = s.bufLen := rfl
@[simp] theorem nextDraw_busy : (nextDraw s).busy = s.busy := rfl
@[simp] theorem nextDraw_done : (nextDraw s).done = s.done := rfl
@[simp] theorem nextDraw_err : (nextDraw s).err = s.err := rfl
@[simp] theorem nextDraw_result : (nextDraw s).result = s.result := rfl
@[simp] theorem nextDraw_outLen : (nextDraw s).outLen = s.outLen := rfl
@[simp] theorem nextDraw_buf : (nextDraw s).buf = s.buf := rfl
@[simp] theorem nextDraw_out : (nextDraw s).out = s.out := rfl
@[simp] theorem nextDraw_draws : (nextDraw s).draws = s.draws + 1 := rfl
@[simp] theorem nextDraw_bufDraw : (nextDraw s).bufDraw = s.bufDraw := rfl
@[simp] theorem nextDraw_outDraw : (nextDraw s).outDraw = s.outDraw := rfl
@[simp] theorem nextDraw_pending : (nextDraw s).pending = s.pending := rfl
@[simp] theorem nextDraw_replies : (nextDraw s).replies = s.replies := rfl

@[simp] theorem popEvent_op : (popEvent s).op = s.op := rfl
@[simp] theorem popEvent_offset : (popEvent s).offset = s.offset := rfl
@[simp] theorem popEvent_width : (popEvent s).width = s.width := rfl
@[simp] theorem popEvent_bufLen : (popEvent s).bufLen = s.bufLen := rfl
@[simp] theorem popEvent_busy : (popEvent s).busy = s.busy := rfl
@[simp] theorem popEvent_done : (popEvent s).done = s.done := rfl
@[simp] theorem popEvent_err : (popEvent s).err = s.err := rfl
@[simp] theorem popEvent_result : (popEvent s).result = s.result := rfl
@[simp] theorem popEvent_outLen : (popEvent s).outLen = s.outLen := rfl
@[simp] theorem popEvent_buf : (popEvent s).buf = s.buf := rfl
@[simp] theorem popEvent_out : (popEvent s).out = s.out := rfl
@[simp] theorem popEvent_draws : (popEvent s).draws = s.draws := rfl
@[simp] theorem popEvent_bufDraw : (popEvent s).bufDraw = s.bufDraw := rfl
@[simp] theorem popEvent_outDraw : (popEvent s).outDraw = s.outDraw := rfl
@[simp] theorem popEvent_pending : (popEvent s).pending = s.pending.tail := rfl
@[simp] theorem popEvent_replies : (popEvent s).replies = s.replies := rfl

@[simp] theorem resetInput_op : (resetInput s).op = 0#2 := rfl
@[simp] theorem resetInput_offset : (resetInput s).offset = 0#32 := rfl
@[simp] theorem resetInput_width : (resetInput s).width = 0#32 := rfl
@[simp] theorem resetInput_bufLen : (resetInput s).bufLen = 0#32 := rfl
@[simp] theorem resetInput_busy : (resetInput s).busy = false := rfl
@[simp] theorem resetInput_done : (resetInput s).done = false := rfl
@[simp] theorem resetInput_err : (resetInput s).err = 0#3 := rfl
@[simp] theorem resetInput_result : (resetInput s).result = 0#64 := rfl
@[simp] theorem resetInput_outLen : (resetInput s).outLen = 0#32 := rfl
@[simp] theorem resetInput_buf : (resetInput s).buf = [] := rfl
@[simp] theorem resetInput_out : (resetInput s).out = [] := rfl
@[simp] theorem resetInput_draws : (resetInput s).draws = s.draws + 1 := rfl
@[simp] theorem resetInput_bufDraw : (resetInput s).bufDraw = s.draws := rfl
@[simp] theorem resetInput_outDraw : (resetInput s).outDraw = s.draws := rfl
@[simp] theorem resetInput_pending : (resetInput s).pending = s.pending := rfl
@[simp] theorem resetInput_replies : (resetInput s).replies = s.replies := rfl

@[simp] theorem placeCommand_op (c : CmdWords) : (placeCommand c s).op = opField c.ctrl := rfl
@[simp] theorem placeCommand_offset (c : CmdWords) : (placeCommand c s).offset = c.offset := rfl
@[simp] theorem placeCommand_width (c : CmdWords) : (placeCommand c s).width = c.width := rfl
@[simp] theorem placeCommand_bufLen (c : CmdWords) : (placeCommand c s).bufLen = c.len := rfl
@[simp] theorem placeCommand_busy (c : CmdWords) : (placeCommand c s).busy = true := rfl
@[simp] theorem placeCommand_done (c : CmdWords) : (placeCommand c s).done = false := rfl
@[simp] theorem placeCommand_err (c : CmdWords) : (placeCommand c s).err = 0#3 := rfl
@[simp] theorem placeCommand_result (c : CmdWords) : (placeCommand c s).result = s.result := rfl
@[simp] theorem placeCommand_outLen (c : CmdWords) : (placeCommand c s).outLen = s.outLen := rfl
@[simp] theorem placeCommand_buf (c : CmdWords) : (placeCommand c s).buf = s.buf := rfl
@[simp] theorem placeCommand_out (c : CmdWords) : (placeCommand c s).out = s.out := rfl
@[simp] theorem placeCommand_draws (c : CmdWords) : (placeCommand c s).draws = s.draws := rfl
@[simp] theorem placeCommand_bufDraw (c : CmdWords) : (placeCommand c s).bufDraw = s.bufDraw := rfl
@[simp] theorem placeCommand_outDraw (c : CmdWords) : (placeCommand c s).outDraw = s.outDraw := rfl
@[simp] theorem placeCommand_pending (c : CmdWords) : (placeCommand c s).pending = [] := rfl
@[simp] theorem placeCommand_replies (c : CmdWords) : (placeCommand c s).replies = s.replies := rfl

/-- Taking the next event off leaves the rest of the list. -/
theorem popEvent_cons (e : Event) (rest : List Event) (h : s.pending = e :: rest) :
    popEvent s = { s with pending := rest } := by simp [popEvent, h]

end Sys2Proof.Machine
end

