-- ==== Sys2Proof/Laws/Memory.lean ====
section
/-! SUPPORT. The laws of a byte memory: read after write, and the canonical form every write keeps. -/

namespace Sys2Proof.Machine

@[simp] theorem Memory.read_nil (i : Nat) : Memory.read [] i = none := rfl

theorem Memory.read_cons (k : Nat) (v : Byte) (m : Memory) (i : Nat) :
    Memory.read ((k, v) :: m) i = if k = i then some v else m.read i := rfl

/-- In a canonical memory nothing is listed at or below an index that all listed ones exceed. -/
theorem Memory.read_eq_none_of_lt {m : Memory} {i : Nat} (h : ∀ c ∈ m, i < c.1) : m.read i = none := by
  induction m with
  | nil => rfl
  | cons c m ih =>
    have hc : i < c.1 := h c (by simp)
    rw [show c = (c.1, c.2) from rfl, Memory.read_cons, if_neg (by omega)]
    exact ih fun d hd => h d (by simp [hd])

/-- Reading after a write: the written byte at its index, every other index as before. -/
theorem Memory.read_write (m : Memory) (i j : Nat) (v : Byte) :
    (m.write i v).read j = if j = i then some v else m.read j := by
  induction m with
  | nil => simp only [Memory.write, Memory.read_cons, Memory.read_nil, eq_comm]
  | cons c m ih =>
    obtain ⟨k, x⟩ := c
    simp only [Memory.write]
    split
    · simp only [Memory.read_cons, eq_comm]
    · split
      · subst_vars
        simp only [Memory.read_cons]
        split <;> simp_all [eq_comm]
      · simp only [Memory.read_cons, ih]
        split <;> split <;> simp_all

@[simp] theorem Memory.read_write_same (m : Memory) (i : Nat) (v : Byte) :
    (m.write i v).read i = some v := by simp [Memory.read_write]

theorem Memory.read_write_ne (m : Memory) {i j : Nat} (v : Byte) (h : j ≠ i) :
    (m.write i v).read j = m.read j := by simp [Memory.read_write, h]

theorem Memory.wf_nil : Memory.wf [] := List.Pairwise.nil

/-- A write lists nothing but the written index and what was listed. -/
theorem Memory.mem_write {m : Memory} {i : Nat} {v : Byte} {c : Host.Cell} (h : c ∈ m.write i v) :
    c = (i, v) ∨ c ∈ m := by
  induction m with
  | nil => simpa [Memory.write] using h
  | cons d m ih =>
    obtain ⟨k, x⟩ := d
    simp only [Memory.write] at h
    split at h
    · simpa using h
    · split at h
      · simp only [List.mem_cons] at h ⊢; tauto
      · simp only [List.mem_cons] at h ⊢
        rcases h with h | h
        · tauto
        · rcases ih h with h | h <;> tauto

/-- A write keeps the canonical form. -/
theorem Memory.write_wf {m : Memory} (h : m.wf) (i : Nat) (v : Byte) : (m.write i v).wf := by
  induction m with
  | nil => simp [Memory.write, Memory.wf]
  | cons c m ih =>
    obtain ⟨k, x⟩ := c
    obtain ⟨hk, hm⟩ := List.pairwise_cons.1 h
    simp only [Memory.write]
    split
    · refine List.pairwise_cons.2 ⟨fun d hd => ?_, h⟩
      rcases List.mem_cons.1 hd with rfl | hd
      · assumption
      · have := hk d hd; simp only at this ⊢; omega
    · split
      · subst_vars; exact List.pairwise_cons.2 ⟨hk, hm⟩
      · refine List.pairwise_cons.2 ⟨fun d hd => ?_, ih hm⟩
        rcases Memory.mem_write hd with rfl | hd
        · simp only; omega
        · exact hk d hd

/-- A write below a bound keeps every listed index below it. -/
theorem Memory.write_below {m : Memory} {n : Nat} (h : m.below n) {i : Nat} (hi : i < n) (v : Byte) :
    (m.write i v).below n := by
  intro c hc
  rcases Memory.mem_write hc with rfl | hc
  · exact hi
  · exact h c hc

/-- Writing one byte past everything listed appends it. -/
theorem Memory.write_append {m : Memory} {i : Nat} (h : ∀ c ∈ m, c.1 < i) (v : Byte) :
    m.write i v = m ++ [(i, v)] := by
  induction m with
  | nil => rfl
  | cons c m ih =>
    obtain ⟨k, x⟩ := c
    have hk : k < i := h (k, x) (by simp)
    simp only [Memory.write, if_neg (show ¬ i < k by omega), if_neg (show ¬ i = k by omega),
      ih fun d hd => h d (by simp [hd]), List.cons_append]

/-- Reading after a run of bytes was written from `i` on. -/
theorem Memory.read_writeFrom (bs : List Byte) : ∀ (m : Memory) (i j : Nat),
    (m.writeFrom i bs).read j = if i ≤ j then (bs[j - i]? <|> m.read j) else m.read j := by
  induction bs with
  | nil => intro m i j; simp [Memory.writeFrom]
  | cons b bs ih =>
    intro m i j
    rw [Memory.writeFrom, ih, Memory.read_write]
    rcases Nat.lt_trichotomy i j with h | rfl | h
    · rw [if_pos (show i + 1 ≤ j by omega), if_neg (show ¬ j = i by omega), if_pos (show i ≤ j by omega),
        show j - i = (j - (i + 1)) + 1 by omega, List.getElem?_cons_succ]
    · simp
    · rw [if_neg (show ¬ i + 1 ≤ j by omega), if_neg (show ¬ j = i by omega), if_neg (show ¬ i ≤ j by omega)]

/-- A run of writes keeps the canonical form. -/
theorem Memory.writeFrom_wf (bs : List Byte) : ∀ {m : Memory}, m.wf → ∀ i, (m.writeFrom i bs).wf := by
  induction bs with
  | nil => intro m h i; exact h
  | cons b bs ih => intro m h i; exact ih (Memory.write_wf h i b) (i + 1)

/-- A run of bytes written past everything listed lists exactly its indices, after what was listed. -/
theorem Memory.map_fst_writeFrom (bs : List Byte) : ∀ (m : Memory) (i : Nat), (∀ c ∈ m, c.1 < i) →
    (m.writeFrom i bs).map Prod.fst = m.map Prod.fst ++ List.range' i bs.length := by
  induction bs with
  | nil => intro m i _; simp [Memory.writeFrom]
  | cons b bs ih =>
    intro m i h
    rw [Memory.writeFrom, Memory.write_append h, ih]
    · simp [List.range'_succ]
    · intro c hc
      rcases List.mem_append.1 hc with hc | hc
      · have := h c hc; omega
      · simp only [List.mem_singleton] at hc; subst hc; simp

/-- OUT after an EXTB lists the bytes 0 to n-1. -/
theorem Memory.map_fst_writeFrom_nil (bs : List Byte) :
    (Memory.writeFrom [] 0 bs).map Prod.fst = List.range bs.length := by
  rw [Memory.map_fst_writeFrom bs [] 0 (by simp)]
  simp [List.range_eq_range']

/-- OUT after an EXTB reads as the bytes written; an index past them holds none. -/
theorem Memory.read_writeFrom_nil (bs : List Byte) (j : Nat) :
    (Memory.writeFrom [] 0 bs).read j = bs[j]? := by
  rw [Memory.read_writeFrom]; simp

end Sys2Proof.Machine
end

