-- ==== Sys2Proof/Laws/Extract.lean ====
section
/-! SUPPORT. What the bit-position primitive, the accumulator and the raw extraction give: when they have a value,
and every bit of it. -/

namespace Sys2Proof.Machine

/-- `read_bit` gives the stream bit (20_memory.md R37, R38). -/
theorem readBit_of_bitIs {buf : Memory} {p : Nat} {b : Bool} (h : BitIs buf p b) :
    readBit buf p = some b.toNat := by
  obtain ⟨byte, hr, rfl⟩ := h
  simp only [readBit, memRead, locate, hr]
  rw [Nat.and_one_is_mod, Nat.shiftRight_eq_div_pow, BitVec.getLsbD, ← Nat.toNat_testBit]

/-- `read_bit` has a value exactly where the byte is written. -/
theorem readBit_eq_none_iff {buf : Memory} {p : Nat} : readBit buf p = none ↔ buf.read (p / 8) = none := by
  simp only [readBit, memRead, locate]
  cases h : buf.read (p / 8) <;> simp

/-- What `read_bit` gives is a stream bit. -/
theorem bitIs_of_readBit {buf : Memory} {p v : Nat} (h : readBit buf p = some v) :
    ∃ b : Bool, BitIs buf p b ∧ v = b.toNat := by
  cases hr : buf.read (p / 8) with
  | none => rw [readBit_eq_none_iff.2 hr] at h; cases h
  | some byte =>
    refine ⟨_, ⟨byte, hr, rfl⟩, ?_⟩
    rw [readBit_of_bitIs ⟨byte, hr, rfl⟩] at h
    exact (Option.some.inj h).symm

/-- A stream bit has one value. -/
theorem BitIs.unique {buf : Memory} {p : Nat} {a b : Bool} (ha : BitIs buf p a) (hb : BitIs buf p b) : a = b := by
  obtain ⟨x, hx, rfl⟩ := ha
  obtain ⟨y, hy, rfl⟩ := hb
  rw [hx] at hy; cases hy; rfl

/-- A field is written exactly when each of its bits can be read. -/
theorem fieldWritten_iff {buf : Memory} {o w : Nat} (hw : 1 ≤ w) :
    FieldWritten buf o w ↔ ∀ i < w, readBit buf (o + i) ≠ none := by
  constructor
  · intro h i hi hn
    have := h ((o + i) / 8) (Nat.div_le_div_right (by omega)) (Nat.div_le_div_right (by omega))
    rw [readBit_eq_none_iff.1 hn] at this; cases this
  · intro h k hlo hhi
    have key : ∃ i < w, (o + i) / 8 = k := by
      by_cases hk : k * 8 ≤ o
      · exact ⟨0, by omega, by omega⟩
      · exact ⟨k * 8 - o, by omega, by omega⟩
    obtain ⟨i, hi, rfl⟩ := key
    have := h i hi
    rw [ne_eq, readBit_eq_none_iff] at this
    exact Option.isSome_iff_ne_none.2 this

/-- The bits of a written field. -/
theorem FieldWritten.bit {buf : Memory} {o w i : Nat} (h : FieldWritten buf o w) (hi : i < w) :
    ∃ b, BitIs buf (o + i) b := by
  have hn := (fieldWritten_iff (by omega)).1 h i hi
  obtain ⟨v, hv⟩ := Option.ne_none_iff_exists'.1 hn
  obtain ⟨b, hb, -⟩ := bitIs_of_readBit hv
  exact ⟨b, hb⟩

/-- The accumulator has no value exactly when some bit it reads has none. -/
theorem accLoop_eq_none_iff {buf : Memory} {o w : Nat} (n : Nat) :
    accLoop buf o w n = none ↔ ∃ i < n, readBit buf (o + i) = none := by
  induction n with
  | zero => simp [accLoop]
  | succ n ih =>
    constructor
    · intro h
      cases hl : accLoop buf o w n with
      | none =>
        obtain ⟨i, hi, hr⟩ := ih.1 hl
        exact ⟨i, by omega, hr⟩
      | some r =>
        simp only [accLoop, hl] at h
        cases hr : readBit buf (o + n) with
        | none => exact ⟨n, by omega, hr⟩
        | some b => simp [hr] at h
    · rintro ⟨i, hi, hr⟩
      by_cases hin : i = n
      · subst hin
        simp only [accLoop, hr]
        cases accLoop buf o w i <;> rfl
      · have := ih.2 ⟨i, by omega, hr⟩
        simp [accLoop, this]

/-- After `n` rounds the accumulator holds the first `n` bits of the field, each in its place (R69). -/
theorem accLoop_testBit {buf : Memory} {o w n r : Nat} (h : accLoop buf o w n = some r) (hn : n ≤ w) (k : Nat) :
    r.testBit k = true ↔ k < w ∧ w - 1 - k < n ∧ BitIs buf (o + (w - 1 - k)) true := by
  induction n generalizing r with
  | zero =>
    simp only [accLoop, Option.some.injEq] at h
    subst h; simp
  | succ n ih =>
    simp only [accLoop] at h
    cases hl : accLoop buf o w n with
    | none => simp [hl] at h
    | some r' =>
      cases hr : readBit buf (o + n) with
      | none => simp [hl, hr] at h
      | some v =>
        obtain ⟨b, hb, rfl⟩ := bitIs_of_readBit hr
        simp only [hl, hr, Option.some.injEq] at h
        subst h
        have hbit : (b.toNat <<< (w - 1 - n)).testBit k = (decide (k = w - 1 - n) && b) := by
          rw [Nat.testBit_shiftLeft]
          by_cases hk : k = w - 1 - n
          · subst hk; cases b <;> simp
          · cases b
            · simp
            · by_cases hge : w - 1 - n ≤ k
              · have : k - (w - 1 - n) ≠ 0 := by omega
                obtain ⟨d, hd⟩ := Nat.exists_eq_succ_of_ne_zero this
                simp [hk, hd, Nat.testBit_succ]
              · simp [hk, hge]
        rw [Nat.testBit_or, Bool.or_eq_true, ih hl (by omega), hbit, Bool.and_eq_true, decide_eq_true_eq]
        constructor
        · rintro (⟨h1, h2, h3⟩ | ⟨rfl, rfl⟩)
          · exact ⟨h1, by omega, h3⟩
          · refine ⟨by omega, by omega, ?_⟩
            rwa [show w - 1 - (w - 1 - n) = n by omega]
        · rintro ⟨h1, h2, h3⟩
          by_cases hk : w - 1 - k < n
          · exact Or.inl ⟨h1, hk, h3⟩
          · have he : w - 1 - k = n := by omega
            rw [he] at h3
            exact Or.inr ⟨by omega, hb.unique h3⟩

/-- `acc` has a value exactly on a written field. -/
theorem acc_eq_none_iff {buf : Memory} {o w : Nat} (hw : 1 ≤ w) : acc buf o w = none ↔ ¬FieldWritten buf o w := by
  rw [acc, accLoop_eq_none_iff, fieldWritten_iff hw]
  push Not
  rfl

/-- `acc` on a written field: the field's bits, most significant first (R69). -/
theorem acc_spec {buf : Memory} {o w : Nat} (h : FieldWritten buf o w) (hw : 1 ≤ w) :
    ∃ u, acc buf o w = some u ∧ u < 2 ^ w ∧ ∀ i < w, BitIs buf (o + i) (u.testBit (w - 1 - i)) := by
  cases ha : acc buf o w with
  | none => exact absurd h ((acc_eq_none_iff hw).1 ha)
  | some u =>
    refine ⟨u, rfl, ?_, fun i hi => ?_⟩
    · refine Nat.lt_pow_two_of_testBit u fun k hk => ?_
      rw [Bool.eq_false_iff, ne_eq, accLoop_testBit ha (by omega)]
      omega
    · obtain ⟨b, hb⟩ := h.bit hi
      have hk := accLoop_testBit ha (le_refl w) (w - 1 - i)
      rw [show w - 1 - (w - 1 - i) = i by omega] at hk
      cases hu : u.testBit (w - 1 - i) with
      | true => exact (hk.1 hu).2.2
      | false =>
        cases b with
        | false => exact hb
        | true => rw [hk.2 ⟨by omega, hi, hb⟩] at hu; cases hu

/-- A number below `2^w` whose bits are the field's is what `acc` gives. -/
theorem acc_eq_of_bits {buf : Memory} {o w u : Nat} (hw : 1 ≤ w) (hu : u < 2 ^ w)
    (h : ∀ i < w, BitIs buf (o + i) (u.testBit (w - 1 - i))) : acc buf o w = some u := by
  have hf : FieldWritten buf o w := by
    rw [fieldWritten_iff hw]
    intro i hi
    rw [readBit_of_bitIs (h i hi)]
    simp
  obtain ⟨v, hv, hlt, hbits⟩ := acc_spec hf hw
  rw [hv]
  congr 1
  refine Nat.eq_of_testBit_eq fun k => ?_
  by_cases hk : k < w
  · have h1 := h (w - 1 - k) (by omega)
    have h2 := hbits (w - 1 - k) (by omega)
    rw [show w - 1 - (w - 1 - k) = k by omega] at h1 h2
    exact h2.unique h1
  · rw [Nat.testBit_lt_two_pow (lt_of_lt_of_le hlt (Nat.pow_le_pow_right (by omega) (by omega))),
      Nat.testBit_lt_two_pow (lt_of_lt_of_le hu (Nat.pow_le_pow_right (by omega) (by omega)))]

@[simp] theorem orBit_length (out : List Byte) (i b : Nat) : (orBit out i b).length = out.length := by
  unfold orBit; split <;> simp

/-- The raw extraction's loop has no value exactly when some bit it reads has none. -/
theorem extbLoop_eq_none_iff {buf : Memory} {o w : Nat} (n : Nat) :
    extbLoop buf o w n = none ↔ ∃ i < n, readBit buf (o + i) = none := by
  induction n with
  | zero => simp [extbLoop]
  | succ n ih =>
    constructor
    · intro h
      cases hl : extbLoop buf o w n with
      | none =>
        obtain ⟨i, hi, hr⟩ := ih.1 hl
        exact ⟨i, by omega, hr⟩
      | some r =>
        simp only [extbLoop, hl] at h
        cases hr : readBit buf (o + n) with
        | none => exact ⟨n, by omega, hr⟩
        | some b => simp [hr] at h
    · rintro ⟨i, hi, hr⟩
      by_cases hin : i = n
      · subst hin
        simp only [extbLoop, hr]
        cases extbLoop buf o w i <;> rfl
      · have := ih.2 ⟨i, by omega, hr⟩
        simp [extbLoop, this]

/-- `extb` has a value exactly on a written field. -/
theorem extb_eq_none_iff {buf : Memory} {o w : Nat} (hw : 1 ≤ w) : extb buf o w = none ↔ ¬FieldWritten buf o w := by
  rw [extb, extbLoop_eq_none_iff, fieldWritten_iff hw]
  push Not
  rfl

theorem getLsbD_one_shiftLeft (k m : Nat) (hm : m < 8) : (1#8 <<< k).getLsbD m = decide (m = k) := by
  rw [BitVec.getLsbD_shiftLeft]
  by_cases h : m = k
  · subst h; simp [hm]
  · by_cases hlt : m < k
    · simp [hlt, h]
    · have : m - k ≠ 0 := by omega
      simp [h, BitVec.getLsbD_one, this]

/-- After `n` rounds of the raw extraction's loop: the length, and bit `7 - i mod 8` of byte `i div 8` for
every position `i` of the output, field bits done and zeros elsewhere (42_raw_extract.md R75, R77). -/
theorem extbLoop_spec {buf : Memory} {o w n : Nat} {out : List Byte} (h : extbLoop buf o w n = some out)
    (hn : n ≤ w) : out.length = outBytes w ∧ ∀ j, (hj : j < out.length) → ∀ m < 8,
      (out[j].getLsbD (7 - m) = true ↔ 8 * j + m < n ∧ BitIs buf (o + (8 * j + m)) true) := by
  induction n generalizing out with
  | zero =>
    simp only [extbLoop, Option.some.injEq] at h
    subst h
    simp
  | succ n ih =>
    simp only [extbLoop] at h
    cases hl : extbLoop buf o w n with
    | none => simp [hl] at h
    | some out' =>
      cases hr : readBit buf (o + n) with
      | none => simp [hl, hr] at h
      | some v =>
        obtain ⟨b, hb, rfl⟩ := bitIs_of_readBit hr
        simp only [hl, hr, Option.some.injEq] at h
        subst h
        obtain ⟨hlen, hbits⟩ := ih hl (by omega)
        refine ⟨by simp [hlen], fun j hj m hm => ?_⟩
        have hj' : j < out'.length := by simpa using hj
        have hold := hbits j hj' m hm
        have hget : (orBit out' n b.toNat)[j].getLsbD (7 - m) =
            (out'[j].getLsbD (7 - m) || (b && decide (8 * j + m = n))) := by
          cases b with
          | false => simp [orBit]
          | true =>
            simp only [orBit, Bool.toNat_true, if_true, List.getElem_modify, Bool.true_and]
            by_cases hnj : n / 8 = j
            · rw [if_pos hnj, BitVec.getLsbD_or, getLsbD_one_shiftLeft _ _ (by omega)]
              congr 1
              rw [decide_eq_decide]
              omega
            · rw [if_neg hnj, decide_eq_false (show ¬8 * j + m = n by omega), Bool.or_false]
        rw [hget, Bool.or_eq_true, hold, Bool.and_eq_true, decide_eq_true_eq]
        constructor
        · rintro (⟨h1, h2⟩ | ⟨rfl, rfl⟩)
          · exact ⟨by omega, h2⟩
          · exact ⟨by omega, hb⟩
        · rintro ⟨h1, h2⟩
          by_cases hk : 8 * j + m < n
          · exact Or.inl ⟨hk, h2⟩
          · have he : 8 * j + m = n := by omega
            rw [he] at h2
            exact Or.inr ⟨hb.unique h2, he⟩

/-- `extb` on a written field: its length, every field bit in its place, zeros after them (R75, R76, R77). -/
theorem extb_spec {buf : Memory} {o w : Nat} (h : FieldWritten buf o w) (hw : 1 ≤ w) :
    ∃ out, extb buf o w = some out ∧ out.length = outBytes w ∧
      ∀ j, (hj : j < out.length) → ∀ m < 8,
        (8 * j + m < w → BitIs buf (o + (8 * j + m)) (out[j].getLsbD (7 - m))) ∧
        (w ≤ 8 * j + m → out[j].getLsbD (7 - m) = false) := by
  cases he : extb buf o w with
  | none => exact absurd h ((extb_eq_none_iff hw).1 he)
  | some out =>
    obtain ⟨hlen, hbits⟩ := extbLoop_spec he (le_refl w)
    refine ⟨out, rfl, hlen, fun j hj m hm => ⟨fun hlt => ?_, fun hge => ?_⟩⟩
    · obtain ⟨b, hb⟩ := h.bit hlt
      have hk := hbits j hj m hm
      cases hu : out[j].getLsbD (7 - m) with
      | true => exact (hk.1 hu).2
      | false =>
        cases b with
        | false => exact hb
        | true => rw [hk.2 ⟨hlt, hb⟩] at hu; cases hu
    · rw [Bool.eq_false_iff, ne_eq, hbits j hj m hm]
      omega

end Sys2Proof.Machine
end

