-- ==== Sys2Proof/Laws/Complete.lean ====
section
/-! SUPPORT. What a completion can do: one spec lemma per shared operation and per command. -/

namespace Sys2Proof.Machine

/-- The checks with W_INT = 64 (60_exceptions.md R84). -/
theorem check_eq (op : BitVec 2) (o w : Int) (len : Nat) :
    check op o w len =
      if op = 3#2 then some .invalidOp
      else if o < 0 then some .invalidOffset
      else if w ≤ 0 then some .invalidWidth
      else if (op = 0#2 ∨ op = 1#2) ∧ 64 < w then some .invalidWidth
      else if 8 * (len : Int) < o + w then some .outOfRange
      else none := rfl

/-- The checks pass: no error of R80 to R83 applies. -/
theorem check_eq_none_iff {op : BitVec 2} {o w : Int} {len : Nat} :
    check op o w len = none ↔ op ≠ 3#2 ∧ 0 ≤ o ∧ 1 ≤ w ∧ ((op = 0#2 ∨ op = 1#2) → w ≤ 64) ∧ o + w ≤ 8 * (len : Int) := by
  rw [check_eq]
  constructor
  · intro h
    split at h
    · cases h
    · split at h
      · cases h
      · split at h
        · cases h
        · split at h
          · cases h
          · split at h
            · cases h
            · refine ⟨by assumption, by omega, by omega, fun hop => ?_, by omega⟩
              by_contra hw
              exact absurd ⟨hop, by omega⟩ ‹¬((op = 0#2 ∨ op = 1#2) ∧ 64 < w)›
  · rintro ⟨h1, h2, h3, h4, h5⟩
    rw [if_neg h1, if_neg (by omega), if_neg (by omega), if_neg, if_neg (by omega)]
    rintro ⟨hop, hw⟩
    have := h4 hop
    omega

/-- A completion is an error completion, a fault on an unwritten byte, or the effect and then success (R64). -/
theorem complete_cases {op : BitVec 2} {offset width len : Word} {effect : Nat → Nat → State → Option State}
    (s : State) :
    (∃ e, check op offset.toInt width.toInt len.toNat = some e ∧
      complete op offset width len effect s = .next (errorCompletion e s)) ∨
    (check op offset.toInt width.toInt len.toNat = none ∧
      effect offset.toInt.toNat width.toInt.toNat s = none ∧
      complete op offset width len effect s = .fault .unwrittenBufferByte) ∨
    (∃ t, check op offset.toInt width.toInt len.toNat = none ∧
      effect offset.toInt.toNat width.toInt.toNat s = some t ∧
      complete op offset width len effect s = .next (succeed t)) := by
  simp only [complete, sint32, uint32]
  cases check op offset.toInt width.toInt len.toNat with
  | some e => exact Or.inl ⟨e, rfl, rfl⟩
  | none =>
    cases effect offset.toInt.toNat width.toInt.toNat s with
    | none => exact Or.inr (Or.inl ⟨rfl, rfl, rfl⟩)
    | some t => exact Or.inr (Or.inr ⟨t, rfl, rfl, rfl⟩)

/-- A completion whose checks find an error. -/
theorem complete_error {op : BitVec 2} {offset width len : Word} {effect : Nat → Nat → State → Option State}
    {e : ErrKind} (s : State) (h : check op offset.toInt width.toInt len.toNat = some e) :
    complete op offset width len effect s = .next (errorCompletion e s) := by
  simp [complete, sint32, uint32, h]

/-- A completion whose checks find no error. -/
theorem complete_ok {op : BitVec 2} {offset width len : Word} {effect : Nat → Nat → State → Option State}
    (s : State) (h : check op offset.toInt width.toInt len.toNat = none) :
    complete op offset width len effect s =
      match effect offset.toInt.toNat width.toInt.toNat s with
      | none => .fault .unwrittenBufferByte
      | some t => .next (succeed t) := by
  cases he : effect offset.toInt.toNat width.toInt.toNat s <;> simp [complete, sint32, uint32, h, he]

/-- The checks pass on the operands of an integer extraction that raise no error. -/
theorem IntOperands.check {offset width len : Word} {o w : Nat} (h : IntOperands offset width len o w)
    {op : BitVec 2} (hop : op ≠ 3#2) : Machine.check op offset.toInt width.toInt len.toNat = none := by
  obtain ⟨h1, h2, h3, h4, h5⟩ := h
  rw [check_eq_none_iff, h1, h2]
  exact ⟨hop, by omega, by omega, fun _ => by omega, by omega⟩

/-- The checks pass on the operands of a raw extraction that raise no error. -/
theorem RawOperands.check {offset width len : Word} {o w : Nat} (h : RawOperands offset width len o w) :
    Machine.check 2#2 offset.toInt width.toInt len.toNat = none := by
  obtain ⟨h1, h2, h3, h4⟩ := h
  rw [check_eq_none_iff, h1, h2]
  exact ⟨by decide, by omega, by omega, fun h => absurd h (by decide), by omega⟩

/-- EXTU on valid operands: the accumulator's value, or a fault (41_integer_extract.md R70). -/
theorem execExtu_valid {offset width len : Word} {o w : Nat} (s : State) (h : IntOperands offset width len o w) :
    execExtu offset width len s =
      match acc s.buf o w with
      | none => .fault .unwrittenBufferByte
      | some u => .next (succeed (setResult (BitVec.ofNat 64 u) s)) := by
  rw [execExtu, complete_ok s (h.check (by decide)), h.offset_eq, h.width_eq]
  simp only [Int.toNat_natCast, extu]
  cases acc s.buf o w <;> rfl

/-- The sign bit is the top bit of the accumulated pattern (R71). -/
theorem readBit_of_acc {buf : Memory} {o w u : Nat} (hw : 1 ≤ w) (h : acc buf o w = some u) :
    readBit buf o = some (u.testBit (w - 1)).toNat := by
  have hf : FieldWritten buf o w := by
    by_contra hf
    rw [(acc_eq_none_iff hw).2 hf] at h; cases h
  obtain ⟨v, hv, -, hbits⟩ := acc_spec hf hw
  rw [h] at hv; cases hv
  exact readBit_of_bitIs (by simpa using hbits 0 hw)

/-- EXTS on valid operands: the accumulator's value as two's complement, or a fault (R71). -/
theorem execExts_valid {offset width len : Word} {o w : Nat} (s : State) (h : IntOperands offset width len o w) :
    execExts offset width len s =
      match acc s.buf o w with
      | none => .fault .unwrittenBufferByte
      | some u =>
        .next (succeed (setResult (BitVec.ofInt 64 (signedValue u (u.testBit (w - 1)).toNat w)) s)) := by
  rw [execExts, complete_ok s (h.check (by decide)), h.offset_eq, h.width_eq]
  simp only [Int.toNat_natCast, exts]
  cases ha : acc s.buf o w with
  | none => rfl
  | some u => simp only [readBit_of_acc h.pos ha]; rfl

/-- EXTB on valid operands: the field's bytes into OUT, or a fault (42_raw_extract.md R75). -/
theorem execExtb_valid {offset width len : Word} {o w : Nat} (s : State) (h : RawOperands offset width len o w) :
    execExtb offset width len s =
      match extb s.buf o w with
      | none => .fault .unwrittenBufferByte
      | some bytes => .next (succeed (setOut bytes s)) := by
  rw [execExtb, complete_ok s h.check, h.offset_eq, h.width_eq]
  simp only [Int.toNat_natCast]
  cases extb s.buf o w <;> rfl

/-- The reserved opcode completes with InvalidOp (30_encoding.md R54). -/
theorem completeReserved_eq (c : CmdWords) (s : State) :
    completeReserved c s = .next (errorCompletion .invalidOp s) :=
  complete_error s (by simp [check])

/-- Every command is a completion with its own OP code (40_command_cycle.md R64). -/
theorem exec_eq_complete (operation : Operation) (offset width len : Word) :
    ∃ effect, ∀ s, exec (operation.instr offset width len) s = complete operation.code offset width len effect s := by
  cases operation
  · exact ⟨fun o w t => (extu t.buf o w).map fun r => setResult r t, fun _ => rfl⟩
  · exact ⟨fun o w t => (exts t.buf o w).map fun r => setResult r t, fun _ => rfl⟩
  · exact ⟨fun o w t => (extb t.buf o w).map fun bytes => setOut bytes t, fun _ => rfl⟩

/-- A command whose checks find an error completes with it and writes nothing but STATUS (60_exceptions.md R85). -/
theorem exec_error {operation : Operation} {offset width len : Word} {e : ErrKind} (s : State)
    (h : check operation.code offset.toInt width.toInt len.toNat = some e) :
    exec (operation.instr offset width len) s = .next (errorCompletion e s) := by
  obtain ⟨effect, he⟩ := exec_eq_complete operation offset width len
  rw [he, complete_error s h]

/-- A command whose checks find no error completes with ERR = 0 where it completes (40_command_cycle.md R64). -/
theorem exec_ok_err {operation : Operation} {offset width len : Word} {s t : State}
    (h : check operation.code offset.toInt width.toInt len.toNat = none)
    (ht : exec (operation.instr offset width len) s = .next t) : t.err = 0#3 := by
  obtain ⟨effect, he⟩ := exec_eq_complete operation offset width len
  rw [he, complete_ok s h] at ht
  split at ht
  · cases ht
  · cases ht; rfl

/-- Everything a command's completion can do: an error completion, a fault, a new RESULT, or a new OUT. -/
theorem exec_cases (i : Instr) (s : State) :
    (∃ e, exec i s = .next (errorCompletion e s)) ∨
    exec i s = .fault .unwrittenBufferByte ∨
    (∃ r, (∃ a b c, i = .extu a b c ∨ i = .exts a b c) ∧ exec i s = .next (succeed (setResult r s))) ∨
    (∃ o w bytes, (∃ a b c, i = .extb a b c ∧ RawOperands a b c o w) ∧ extb s.buf o w = some bytes ∧
      exec i s = .next (succeed (setOut bytes s))) := by
  cases i with
  | extu a b c =>
    rcases complete_cases (op := 0#2) (offset := a) (width := b) (len := c)
      (effect := fun o w t => (extu t.buf o w).map fun r => setResult r t) s with
      ⟨e, -, h⟩ | ⟨-, -, h⟩ | ⟨t, -, ht, h⟩
    · exact .inl ⟨e, h⟩
    · exact .inr (.inl h)
    · obtain ⟨r, -, rfl⟩ := Option.map_eq_some_iff.1 ht
      exact .inr (.inr (.inl ⟨r, ⟨a, b, c, .inl rfl⟩, h⟩))
  | exts a b c =>
    rcases complete_cases (op := 1#2) (offset := a) (width := b) (len := c)
      (effect := fun o w t => (exts t.buf o w).map fun r => setResult r t) s with
      ⟨e, -, h⟩ | ⟨-, -, h⟩ | ⟨t, -, ht, h⟩
    · exact .inl ⟨e, h⟩
    · exact .inr (.inl h)
    · obtain ⟨r, -, rfl⟩ := Option.map_eq_some_iff.1 ht
      exact .inr (.inr (.inl ⟨r, ⟨a, b, c, .inr rfl⟩, h⟩))
  | extb a b c =>
    rcases complete_cases (op := 2#2) (offset := a) (width := b) (len := c)
      (effect := fun o w t => (extb t.buf o w).map fun bytes => setOut bytes t) s with
      ⟨e, -, h⟩ | ⟨-, -, h⟩ | ⟨t, hc, ht, h⟩
    · exact .inl ⟨e, h⟩
    · exact .inr (.inl h)
    · obtain ⟨bytes, hb, rfl⟩ := Option.map_eq_some_iff.1 ht
      obtain ⟨-, h1, h2, -, h3⟩ := check_eq_none_iff.1 hc
      refine .inr (.inr (.inr ⟨a.toInt.toNat, b.toInt.toNat, bytes, ⟨a, b, c, rfl, ?_⟩, hb, h⟩))
      exact ⟨by omega, by omega, by omega, by omega⟩

end Sys2Proof.Machine
end

