-- ==== Sys2Proof/Laws/Step.lean ====
section
/-! SUPPORT. What a step can do: the shape of an extractor's turn, of a host access and of a step. -/

namespace Sys2Proof.Machine

/-- BUF_CAP lies between 1 and 65536 (00_scope.md R7). -/
theorem bufCap_pos : 1 ≤ Config.bufCap := by simp [Config.bufCap]

theorem bufCap_le : Config.bufCap ≤ 65536 := Config.bufCapLessOne.isLt

@[simp] theorem opField_setWidth (op : BitVec 2) : opField (op.setWidth 32) = op := by
  apply BitVec.eq_of_getLsbD_eq
  intro i hi
  simp [opField, hi]
  intro h; omega

/-- The command in the registers, by its OP field (30_encoding.md R52). -/
theorem completeCommand_cases (s : State) :
    (s.op = 0#2 ∧ completeCommand s = exec (.extu s.offset s.width s.bufLen) s) ∨
    (s.op = 1#2 ∧ completeCommand s = exec (.exts s.offset s.width s.bufLen) s) ∨
    (s.op = 2#2 ∧ completeCommand s = exec (.extb s.offset s.width s.bufLen) s) ∨
    (s.op = 3#2 ∧ completeCommand s = .next (errorCompletion .invalidOp s)) := by
  have hop : s.op = 0#2 ∨ s.op = 1#2 ∨ s.op = 2#2 ∨ s.op = 3#2 := by
    generalize s.op = x
    revert x; decide
  rcases hop with h | h | h | h
  all_goals
    simp only [completeCommand, decode, commandWords, opField_setWidth, h, Operation.ofCode, Operation.instr,
      completeReserved_eq]
    simp

/-- A step whose next event is the extractor's: a completion while busy, nothing while idle. -/
theorem step_extractor {s : State} (h : extractorIsNext s = true) :
    step s = if s.busy then completeCommand (popEvent s) else .next (popEvent s) := by
  have hp : step s = extractorTurn (popEvent s) := by
    cases hs : s.pending with
    | nil =>
      have : popEvent s = s := by
        cases s; simp_all [popEvent]
      rw [this]
      simp [step, nextEvent, hs]
    | cons e rest =>
      cases e with
      | extractor => simp [step, nextEvent, hs, popEvent]
      | access a => simp [extractorIsNext, hs] at h
      | reset => simp [extractorIsNext, hs] at h
  rw [hp, extractorTurn, popEvent_busy]

/-- A step whose next event is a host access. -/
theorem step_access {s : State} {a : Access} {rest : List Event} (h : s.pending = .access a :: rest) :
    step s = hostTurn a (popEvent s) := by
  simp [step, nextEvent, h, popEvent]

/-- A step whose next event is the reset input. -/
theorem step_reset {s : State} {rest : List Event} (h : s.pending = .reset :: rest) :
    step s = .next (resetInput (popEvent s)) := by
  simp [step, nextEvent, h, popEvent]

/-- Every state's next event is the extractor's, a host access or a reset. -/
theorem event_cases (s : State) :
    extractorIsNext s = true ∨ (∃ a rest, s.pending = .access a :: rest) ∨ (∃ rest, s.pending = .reset :: rest) := by
  cases h : s.pending with
  | nil => exact .inl (by simp [extractorIsNext, h])
  | cons e rest =>
    cases e with
    | extractor => exact .inl (by simp [extractorIsNext, h])
    | access a => exact .inr (.inl ⟨a, rest, rfl⟩)
    | reset => exact .inr (.inr ⟨rest, rfl⟩)

/-- A result register read: its value while idle, one fresh draw while busy (70_reset_and_hazards.md R98). -/
theorem readResultWord_cases (v : Word) (s : State) :
    ∃ r k, readResultWord v s = { s with replies := r :: s.replies, draws := s.draws + k } := by
  cases h : s.busy with
  | false => exact ⟨.word v, 0, by simp [readResultWord, h, replyWord]⟩
  | true => exact ⟨.word (Config.freeReadWord s.draws), 1, by simp [readResultWord, h, replyWord, nextDraw]⟩

/-- Everything a host read can do: a reply, and perhaps one draw (20_memory.md R44). -/
theorem hostRead_cases (l : Location) (s : State) :
    ∃ r k, hostRead l s = { s with replies := r :: s.replies, draws := s.draws + k } := by
  cases l
  case resultLo => exact readResultWord_cases _ s
  case resultHi => exact readResultWord_cases _ s
  case outLen => exact readResultWord_cases _ s
  case out j =>
    cases h : s.busy with
    | false => exact ⟨.byte (outByte s j), 0, by simp [hostRead, h, replyByte]⟩
    | true => exact ⟨.byte (Config.freeReadByte s.draws), 1, by simp [hostRead, h, replyByte, nextDraw]⟩
  all_goals exact ⟨_, 0, rfl⟩

/-- A write to a command's input while busy is refused (70_reset_and_hazards.md R97). -/
theorem hostWrite_busy {l : Location} {s : State} (v : Word) (hl : isInput l = true) (hb : s.busy = true) :
    hostWrite l v s = .refused .inputWriteWhileBusy := by
  cases l <;> simp_all [hostWrite, writeInput, isInput]

/-- A write that is to no input of a command: a START accepted, or nothing (R44). -/
theorem hostWrite_other {l : Location} (v : Word) (s : State) (hl : isInput l = false) :
    (s.busy = false ∧ l = .start ∧ v.getLsbD 0 = true ∧ hostWrite l v s = .next (onStart s)) ∨
    ((l = .start → v.getLsbD 0 = false ∨ s.busy = true) ∧ hostWrite l v s = .next s) := by
  cases l <;> simp only [isInput, Bool.true_eq_false] at hl
  case start =>
    cases hb : s.busy <;> cases hv : v.getLsbD 0 <;> simp only [hostWrite, startWrite, hb, hv] <;> simp
  all_goals exact .inr ⟨by simp, rfl⟩

/-- A write to a command's input while idle (R44). -/
theorem hostWrite_input {l : Location} {s : State} (v : Word) (hl : isInput l = true) (hb : s.busy = false) :
    (l = .ctrl ∧ hostWrite l v s = .next { s with op := opField v }) ∨
    (l = .offset ∧ hostWrite l v s = .next { s with offset := v }) ∨
    (l = .width ∧ hostWrite l v s = .next { s with width := v }) ∨
    (l = .bufLen ∧ v.toNat ≤ Config.bufCap ∧ hostWrite l v s = .next { s with bufLen := v }) ∨
    (l = .bufLen ∧ Config.bufCap < v.toNat ∧ hostWrite l v s = .next s) ∨
    (∃ i, l = .buf i ∧ hostWrite l v s = .next { s with buf := s.buf.write i (v.extractLsb' 0 8) }) := by
  cases l <;> simp only [isInput, Bool.false_eq_true] at hl
  case bufLen =>
    by_cases hc : v.toNat ≤ Config.bufCap
    · exact .inr (.inr (.inr (.inl ⟨rfl, hc, by simp [hostWrite, writeInput, hb, setBufLen, uint32, hc]⟩)))
    · exact .inr (.inr (.inr (.inr (.inl ⟨rfl, by omega, by simp [hostWrite, writeInput, hb, setBufLen, uint32, hc]⟩))))
  all_goals simp [hostWrite, writeInput, hb]

/-- A host access has the effect of its location, or stops (R43). -/
theorem hostTurn_cases (a : Access) (s : State) :
    (0x30000 ≤ accessOff a ∧ hostTurn a s = .fault .outsideBfx) ∨
    (∃ l, locationOf (accessOff a) = some l ∧ accessPermitted (accessSize a) (accessOff a) = false ∧
      hostTurn a s = .refused .accessForm) ∨
    (∃ l, locationOf (accessOff a) = some l ∧ accessPermitted (accessSize a) (accessOff a) = true ∧
      ((∃ size off, a = .read size off ∧ hostTurn a s = .next (hostRead l s)) ∨
       (∃ size off v, a = .write size off v ∧ hostTurn a s = hostWrite l v s))) := by
  cases hl : locationOf (accessOff a) with
  | none =>
    refine .inl ⟨?_, by simp [hostTurn, hl]⟩
    by_contra hlt
    simp only [locationOf] at hl
    repeat' split at hl
    all_goals first | (cases hl; done) | omega
  | some l =>
    cases hp : accessPermitted (accessSize a) (accessOff a) with
    | false => exact .inr (.inl ⟨l, rfl, rfl, by simp [hostTurn, hl, hp]⟩)
    | true =>
      refine .inr (.inr ⟨l, rfl, rfl, ?_⟩)
      cases a with
      | read size off => exact .inl ⟨size, off, rfl, by simp [hostTurn, hl, hp]⟩
      | write size off v => exact .inr ⟨size, off, v, rfl, by simp [hostTurn, hl, hp]⟩

/-- A BUF location is within the capacity (10_state.md R28). -/
theorem locationOf_buf {off i : Nat} (h : locationOf off = some (.buf i)) : i < Config.bufCap ∧ off = 0x10000 + i := by
  unfold locationOf at h
  by_cases h1 : off < 0x10000
  · rw [if_pos h1] at h
    repeat' split at h
    all_goals simp at h
  · by_cases h2 : off < 0x20000
    · rw [if_neg h1, if_pos h2] at h
      split at h
      · simp only [Option.some.injEq, Location.buf.injEq] at h; omega
      · simp at h
    · rw [if_neg h1, if_neg h2] at h
      repeat' split at h
      all_goals simp at h

/-- The register map, place by place (10_state.md R15). -/
theorem locationOf_ctrl : locationOf 0x00000 = some .ctrl := by simp [locationOf]

theorem locationOf_offset : locationOf 0x00004 = some .offset := by simp [locationOf]

theorem locationOf_width : locationOf 0x00008 = some .width := by simp [locationOf]

theorem locationOf_bufLen : locationOf 0x0000C = some .bufLen := by simp [locationOf]

theorem locationOf_status : locationOf 0x00010 = some .status := by simp [locationOf]

theorem locationOf_start : locationOf 0x00014 = some .start := by simp [locationOf]

theorem locationOf_resultLo : locationOf 0x00018 = some .resultLo := by simp [locationOf]

theorem locationOf_resultHi : locationOf 0x0001C = some .resultHi := by simp [locationOf]

theorem locationOf_outLen : locationOf 0x00020 = some .outLen := by simp [locationOf]

theorem locationOf_reserved {off : Nat} (h1 : 0x00024 ≤ off) (h2 : off < 0x10000) :
    locationOf off = some .reserved := by
  rw [locationOf, if_pos h2]
  repeat rw [if_neg (by omega)]

theorem locationOf_bufByte {i : Nat} (h : i < Config.bufCap) : locationOf (0x10000 + i) = some (.buf i) := by
  have := bufCap_le
  rw [locationOf, if_neg (by omega), if_pos (by omega), Nat.add_sub_cancel_left, if_pos h]

theorem locationOf_pastBuf {off : Nat} (h1 : 0x10000 + Config.bufCap ≤ off) (h2 : off < 0x20000) :
    locationOf off = some .pastBuf := by
  rw [locationOf, if_neg (by omega), if_pos h2, if_neg (by omega)]

theorem locationOf_outByte {j : Nat} (h : j < Config.outCap) : locationOf (0x20000 + j) = some (.out j) := by
  have := bufCap_le
  rw [Config.outCap] at h
  rw [locationOf, if_neg (by omega), if_neg (by omega), if_pos (by omega), Nat.add_sub_cancel_left, Config.outCap,
    if_pos h]

theorem locationOf_pastOut {off : Nat} (h1 : 0x20000 + Config.outCap ≤ off) (h2 : off < 0x30000) :
    locationOf off = some .pastOut := by
  rw [locationOf, if_neg (by omega), if_neg (by omega), if_pos h2, if_neg (by omega)]

/-- A permitted read as a step: its location's read. -/
theorem step_read {s : State} {size : AccessSize} {off : Nat} {rest : List Event} {l : Location}
    (h : s.pending = .access (.read size off) :: rest) (hl : locationOf off = some l)
    (hp : accessPermitted size off = true) : step s = .next (hostRead l { s with pending := rest }) := by
  rw [step_access h, popEvent_cons s _ _ h]
  simp [hostTurn, accessOff, accessSize, hl, hp]

/-- A permitted write as a step: its location's write. -/
theorem step_write {s : State} {size : AccessSize} {off : Nat} {v : Word} {rest : List Event} {l : Location}
    (h : s.pending = .access (.write size off v) :: rest) (hl : locationOf off = some l)
    (hp : accessPermitted size off = true) : step s = hostWrite l v { s with pending := rest } := by
  rw [step_access h, popEvent_cons s _ _ h]
  simp [hostTurn, accessOff, accessSize, hl, hp]

/-- Aligned 32-bit accesses are permitted below the windows (20_memory.md R43). -/
theorem accessPermitted_word {off : Nat} (h : off < 0x10000) (ha : off % 4 = 0) :
    accessPermitted .word off = true := by simp [accessPermitted, h, ha]

/-- 8-bit accesses are permitted in the windows (R43). -/
theorem accessPermitted_byte {off : Nat} (h : 0x10000 ≤ off) : accessPermitted .byte off = true := by
  simp [accessPermitted, Nat.not_lt.2 h]

end Sys2Proof.Machine
end

