-- ==== Sys2Proof/Laws/Bytes.lean ====
section
/-! SUPPORT. Buffers as big-endian integers, and which buffer bytes the bit loops depend on. -/

namespace Sys2Proof.Machine

theorem bigEndian_lt (bs : List Byte) : bigEndian bs < 2 ^ (8 * bs.length) := by
  induction bs with
  | nil => simp [bigEndian]
  | cons b bs ih =>
    have := b.isLt
    simp only [bigEndian, List.length_cons]
    rw [show 8 * (bs.length + 1) = 8 * bs.length + 8 by ring, pow_add]
    nlinarith

/-- Stream bit `p` of a buffer is bit `8 * n - 1 - p` of it as one big-endian integer (20_memory.md R34, R37). -/
theorem bigEndian_testBit (bs : List Byte) (p : Nat) (hp : p < 8 * bs.length) :
    (bigEndian bs).testBit (8 * bs.length - 1 - p) = (bs[p / 8]'(by omega)).getLsbD (7 - p % 8) := by
  induction bs generalizing p with
  | nil => simp at hp
  | cons b bs ih =>
    simp only [bigEndian, List.length_cons] at hp ⊢
    rw [mul_comm, Nat.testBit_two_pow_mul_add _ (bigEndian_lt bs)]
    by_cases h : p < 8
    · rw [if_neg (by omega)]
      have : p / 8 = 0 := by omega
      simp only [this, List.getElem_cons_zero, BitVec.getLsbD]
      congr 1; omega
    · rw [if_pos (by omega)]
      have e : p / 8 = (p - 8) / 8 + 1 := by omega
      simp only [e, List.getElem_cons_succ]
      have := ih (p - 8) (by omega)
      rw [show 8 * bs.length - 1 - (p - 8) = 8 * (bs.length + 1) - 1 - p by omega] at this
      rw [this]; congr 1; omega

theorem HoldsBytes.bitIs {buf : Memory} {bs : List Byte} (h : HoldsBytes buf bs) {p : Nat}
    (hp : p < 8 * bs.length) : BitIs buf p ((bigEndian bs).testBit (8 * bs.length - 1 - p)) :=
  ⟨_, h (p / 8) (by omega), (bigEndian_testBit bs p hp).symm⟩

/-- A field inside a buffer written whole has been written. -/
theorem HoldsBytes.fieldWritten {buf : Memory} {bs : List Byte} (h : HoldsBytes buf bs) {o w : Nat} (hw : 1 ≤ w)
    (hf : o + w ≤ 8 * bs.length) : FieldWritten buf o w := by
  intro k _ _
  rw [h k (by omega)]; rfl

theorem holdsBytes_writeFrom_nil (bytes : List Byte) : HoldsBytes (Memory.writeFrom [] 0 bytes) bytes := by
  intro k hk
  rw [Memory.read_writeFrom_nil, List.getElem?_eq_getElem hk]

/-- A bit depends only on the bytes below its buffer's length (20_memory.md R49). -/
theorem readBit_congr {b₁ b₂ : Memory} {n p : Nat} (h : ∀ k < n, b₁.read k = b₂.read k) (hp : p < 8 * n) :
    readBit b₁ p = readBit b₂ p := by
  simp only [readBit, memRead, locate]
  rw [h (p / 8) (by omega)]

theorem accLoop_congr {b₁ b₂ : Memory} {o w n : Nat} (h : ∀ i < n, readBit b₁ (o + i) = readBit b₂ (o + i)) :
    accLoop b₁ o w n = accLoop b₂ o w n := by
  induction n with
  | zero => rfl
  | succ n ih => simp only [accLoop]; rw [ih fun i hi => h i (by omega), h n (by omega)]

theorem extbLoop_congr {b₁ b₂ : Memory} {o w n : Nat} (h : ∀ i < n, readBit b₁ (o + i) = readBit b₂ (o + i)) :
    extbLoop b₁ o w n = extbLoop b₂ o w n := by
  induction n with
  | zero => rfl
  | succ n ih => simp only [extbLoop]; rw [ih fun i hi => h i (by omega), h n (by omega)]

end Sys2Proof.Machine
end

