-- ==== Sys2Proof/Laws/Run.lean ====
section
/-! SUPPORT. Runs of several steps, the completion of a command by its OP field, and small facts about STATUS. -/

namespace Sys2Proof.Machine

theorem run_succ {s t : State} (h : step s = .next t) (n : Nat) :
    Host.Core.run core (n + 1) s = Host.Core.run core n t := by
  simp only [Host.Core.run, core, h]

theorem run_fault {s : State} {f : Fault} (h : step s = .fault f) (n : Nat) :
    Host.Core.run core (n + 1) s = .fault f := by
  simp only [Host.Core.run, core, h]

theorem run_two {s t u : State} (h₁ : step s = .next t) (h₂ : step t = .next u) :
    Host.Core.run core 2 s = .next u := by
  simp only [Host.Core.run, core, h₁, h₂]

theorem run_add (m n : Nat) {s t : State} (h : Host.Core.run core m s = .next t) :
    Host.Core.run core (m + n) s = Host.Core.run core n t := by
  induction m generalizing s with
  | zero => cases h; simp
  | succ m ih =>
    cases hs : step s with
    | next u =>
      rw [run_succ hs] at h
      rw [show m + 1 + n = m + n + 1 by omega, run_succ hs, ih h]
    | fault f => rw [run_fault hs] at h; cases h
    | refused r => simp only [Host.Core.run, core, hs] at h; cases h

theorem op_cases (x : BitVec 2) : x = 0#2 ∨ x = 1#2 ∨ x = 2#2 ∨ x = 3#2 := by revert x; decide

/-- Masking CTRL as the opcode table does leaves its OP field (30_encoding.md R52). -/
theorem and_three_eq (x : Word) : x &&& 3#32 = (opField x).setWidth 32 := by
  apply BitVec.eq_of_getLsbD_eq
  intro i hi
  rw [BitVec.getLsbD_and, BitVec.getLsbD_setWidth, opField, BitVec.getLsbD_extractLsb', BitVec.getLsbD_ofNat]
  rcases i with _ | _ | i
  · simp
  · simp; intro _; decide
  · rw [Nat.testBit_lt_two_pow (show 3 < 2 ^ (i + 1 + 1) from lt_of_lt_of_le (by norm_num)
      (Nat.pow_le_pow_right (n := 2) (by omega) (show 2 ≤ i + 1 + 1 by omega)))]
    simp

/-- A command in the registers whose opcode is not the reserved one. -/
theorem completeCommand_eq_exec (s : State) (h : s.op ≠ 3#2) :
    ∃ operation : Operation, s.op = operation.code ∧
      completeCommand s = exec (operation.instr s.offset s.width s.bufLen) s := by
  rcases completeCommand_cases s with ⟨ho, h'⟩ | ⟨ho, h'⟩ | ⟨ho, h'⟩ | ⟨ho, h'⟩
  · exact ⟨.extu, ho, h'⟩
  · exact ⟨.exts, ho, h'⟩
  · exact ⟨.extb, ho, h'⟩
  · exact absurd ho h

/-- A command whose checks find an error completes with it (60_exceptions.md R85). -/
theorem completeCommand_error (s : State) {e : ErrKind}
    (h : check s.op s.offset.toInt s.width.toInt s.bufLen.toNat = some e) :
    completeCommand s = .next (errorCompletion e s) := by
  by_cases h3 : s.op = 3#2
  · rcases completeCommand_cases s with ⟨ho, -⟩ | ⟨ho, -⟩ | ⟨ho, -⟩ | ⟨-, h'⟩
    · exact absurd (h3.symm.trans ho) (by decide)
    · exact absurd (h3.symm.trans ho) (by decide)
    · exact absurd (h3.symm.trans ho) (by decide)
    · rw [h3, check_eq, if_pos rfl] at h; cases h; exact h'
  · obtain ⟨operation, ho, h'⟩ := completeCommand_eq_exec s h3
    rw [h']; exact exec_error s (by rw [← ho]; exact h)

theorem intOperands_of_check {op : BitVec 2} (hop : op = 0#2 ∨ op = 1#2) {offset width len : Word}
    (h : check op offset.toInt width.toInt len.toNat = none) : ∃ o w, IntOperands offset width len o w := by
  obtain ⟨-, h1, h2, h3, h4⟩ := check_eq_none_iff.1 h
  have := h3 hop
  exact ⟨offset.toInt.toNat, width.toInt.toNat, by omega, by omega, by omega, by omega, by omega⟩

theorem rawOperands_of_check {offset width len : Word}
    (h : check 2#2 offset.toInt width.toInt len.toNat = none) : ∃ o w, RawOperands offset width len o w := by
  obtain ⟨-, h1, h2, h3, h4⟩ := check_eq_none_iff.1 h
  exact ⟨offset.toInt.toNat, width.toInt.toNat, by omega, by omega, by omega, by omega⟩

theorem errCode_ne_zero (e : ErrKind) : errCode e ≠ 0#3 := by cases e <;> decide

theorem errCode_le (e : ErrKind) : (errCode e).toNat ≤ 4 := by cases e <;> decide

theorem locationOf_lt {off : Nat} {l : Location} (h : locationOf off = some l) : off < 0x30000 := by
  by_contra hc
  unfold locationOf at h
  rw [if_neg (by omega), if_neg (by omega), if_neg (by omega)] at h
  cases h

theorem locationOf_isSome {off : Nat} (h : off < 0x30000) : ∃ l, locationOf off = some l := by
  unfold locationOf
  repeat' split
  all_goals exact ⟨_, rfl⟩

/-- A permitted read is one reply and no other effect but a draw (20_memory.md R44). -/
theorem step_read_inv {s t : State} {size : AccessSize} {off : Nat} {rest : List Event}
    (h : s.pending = .access (.read size off) :: rest) (ht : step s = .next t) :
    ∃ l, locationOf off = some l ∧ accessPermitted size off = true ∧ t = hostRead l { s with pending := rest } := by
  rcases hostTurn_cases (.read size off) (popEvent s) with
    ⟨-, h'⟩ | ⟨l, -, -, h'⟩ | ⟨l, hl, hp, ⟨_, _, hh, h'⟩ | ⟨_, _, _, hh, -⟩⟩
  · rw [step_access h, h'] at ht; cases ht
  · rw [step_access h, h'] at ht; cases ht
  · rw [step_access h, h', popEvent_cons s _ _ h] at ht; cases ht
    exact ⟨l, hl, hp, rfl⟩
  · cases hh

/-- A host access to come is a bus transaction to come (30_encoding.md R60). -/
theorem busTransactions_ne_nil {ps : List Event} {a : Access} (h : Event.access a ∈ ps) : busTransactions ps ≠ [] := by
  induction ps with
  | nil => cases h
  | cons e ps ih =>
    cases e with
    | access b => simp [busTransactions]
    | extractor => simp only [busTransactions]; exact ih (by simpa using h)
    | reset => simp only [busTransactions]; exact ih (by simpa using h)

theorem runEnded_iff (s : State) : runEnded s = true ↔ busTransactions s.pending = [] ∧ s.busy = false := by
  simp [runEnded]

/-- The invariant reads these fields only; of the draw counters it asks that the next draw is a new one. -/
theorem Inv.congr {s t : State} (h : Inv s) (hbuf : t.buf = s.buf) (hout : t.out = s.out) (houtLen : t.outLen = s.outLen)
    (hbufLen : t.bufLen = s.bufLen) (hbusy : t.busy = s.busy) (hdone : t.done = s.done) (herr : t.err = s.err)
    (hbufDrawn : t.bufDraw < t.draws) (houtDrawn : t.outDraw < t.draws) : Inv t where
  bufWf := hbuf ▸ h.bufWf
  bufBelow := hbuf ▸ h.bufBelow
  outBytes := by rw [hout, houtLen]; exact h.outBytes
  outFits := houtLen ▸ h.outFits
  lenLegal := hbufLen ▸ h.lenLegal
  notBoth := by rw [hbusy, hdone]; exact h.notBoth
  errLegal := herr ▸ h.errLegal
  errOnlyDone := by rw [herr, hdone]; exact h.errOnlyDone
  bufDrawn := hbufDrawn
  outDrawn := houtDrawn

/-- An error completion keeps the invariant. -/
theorem Inv.errorCompletion {s : State} (h : Inv s) (e : ErrKind) : Inv (errorCompletion e s) :=
  ⟨h.1, h.2, h.3, h.4, h.5, by simp, by simpa using errCode_le e, by simp, h.9, h.10⟩

end Sys2Proof.Machine
end

