-- ==== Sys2Proof/Laws/PerInstr.lean ====
section
/-! SUPPORT. Statements about every command as syntax, one lemma per constructor. -/

namespace Sys2Proof.Laws.MatchMask

/-- The match value of a command's row of the opcode table (30_encoding.md R52). -/
def matchValue : Instr → Word
  | .extu _ _ _ => 0x00000000#32
  | .exts _ _ _ => 0x00000001#32
  | .extb _ _ _ => 0x00000002#32

/-- A command's encoding is its row's: CTRL under the mask is the match value, and decoding gives the command back. -/
def Statement (i : Instr) : Prop :=
  (encode i).ctrl &&& 0x00000003#32 = matchValue i ∧ decode (encode i) = .ok i

theorem extu (offset width len : Word) : Statement (.extu offset width len) := ⟨by simp [encode, matchValue, Operation.code], rfl⟩

theorem exts (offset width len : Word) : Statement (.exts offset width len) := ⟨by simp [encode, matchValue, Operation.code], rfl⟩

theorem extb (offset width len : Word) : Statement (.extb offset width len) := ⟨by simp [encode, matchValue, Operation.code], rfl⟩

end Sys2Proof.Laws.MatchMask
end

