-- ==== Sys2Proof/Tests/Slice0.lean ====
section
/-! SUPPORT. The model's own tests. Expected values are those of 95_test_vectors.md (its row in each comment) or of the rule
named. Below them, one witness per obligation that has hypotheses: concrete values that meet them. -/

namespace Sys2Proof.Tests

open Sys2Proof.Machine

/-- Buffer A and buffer B9 of 95_test_vectors.md §1. -/
def bufferA : List Byte := [0xA5#8, 0x3C#8, 0xF0#8, 0x0F#8, 0x81#8]

def bufferB9 : List Byte := [0x80#8, 0x00#8, 0x00#8, 0x00#8, 0x00#8, 0x00#8, 0x00#8, 0x01#8, 0xFF#8]

/-- An idle machine whose buffer holds `bytes`. -/
def idle (bytes : List Byte) : State :=
  { State.reset with buf := Memory.writeFrom [] 0 bytes, bufLen := BitVec.ofNat 32 bytes.length }

/-- A machine with a command in flight on the buffer `bytes`. -/
def inFlight (op : BitVec 2) (offset width : Word) (bytes : List Byte) : State :=
  { idle bytes with op := op, offset := offset, width := width, busy := true }

/-- A value of the next state, if there is one. -/
def ofNext {α : Type} (f : State → α) : Host.Outcome State Fault Refusal → Option α
  | .next s => some (f s)
  | .fault _ => none
  | .refused _ => none

/-- STATUS, RESULT, OUT_LEN and OUT together. -/
def outputs (s : State) : Word × DWord × Word × Memory := (statusWord s, s.result, s.outLen, s.out)

/-! ## WellFormed refuses -/

/-- LEN above every legal BUF_LEN (10_state.md R19). -/
theorem test_instr_len_refused : ¬Instr.WellFormed (.extu 0#32 1#32 0xFFFFFFFF#32) := by
  have := bufCap_le
  simp only [Instr.WellFormed, Instr.len, show (0xFFFFFFFF#32).toNat = 4294967295 from rfl]
  omega

theorem test_instr_len_accepted : Instr.WellFormed (.extb 0xFFFFFFFF#32 0x80000000#32 0x00000001#32) := bufCap_pos

theorem test_literal_decimal_range :
    ¬Literal.WellFormed (.dec 2147483648) ∧ ¬Literal.WellFormed (.dec (-2147483649)) ∧
      Literal.WellFormed (.dec 2147483647) ∧ Literal.WellFormed (.dec (-2147483648)) := by decide

theorem test_literal_hex_digits :
    ¬Literal.WellFormed (.hex [1, 0, 0, 0, 0, 0, 0, 0, 0]) ∧ ¬Literal.WellFormed (.hex []) ∧
      Literal.WellFormed (.hex [15, 15, 15, 15, 15, 15, 15, 15]) := by decide

theorem test_statement_offsets :
    ¬HostStmt.WellFormed (.wr32 0x00002 0#32) ∧ ¬HostStmt.WellFormed (.wr32 0x10000 0#32) ∧
      ¬HostStmt.WellFormed (.rd32 0x00001) ∧ ¬HostStmt.WellFormed (.rd32 0x20000) ∧
      ¬HostStmt.WellFormed (.wr8 0x00000 0#8) ∧ ¬HostStmt.WellFormed (.wr8 0x30000 0#8) ∧
      ¬HostStmt.WellFormed (.rd8 0x0FFFF) ∧ ¬HostStmt.WellFormed (.rd8 0x30000) := by decide

theorem test_statement_literals :
    ¬HostStmt.WellFormed (.command .extu (.dec 2147483648) (.dec 1)) ∧
      ¬HostStmt.WellFormed (.command .exts (.dec 0) (.hex [])) := by decide

/-- LOADBUF with more bytes than BUF_CAP (30_encoding.md R59). -/
theorem test_loadbuf_too_long :
    ¬HostStmt.WellFormed (.loadbuf (List.replicate (Config.bufCap + 1) 0#8)) := by
  simp [HostStmt.isWellFormed]

/-! ## Decode -/

/-- The three rows and the reserved one, as 30_encoding.md R52 writes them. -/
theorem test_decode_extu : decode ⟨0b00000000000000000000000000000000#32, 3#32, 10#32, 5#32⟩ =
    .ok (.extu 3#32 10#32 5#32) := by decide

theorem test_decode_exts : decode ⟨0b00000000000000000000000000000001#32, 12#32, 8#32, 5#32⟩ =
    .ok (.exts 12#32 8#32 5#32) := by decide

theorem test_decode_extb : decode ⟨0b00000000000000000000000000000010#32, 3#32, 10#32, 5#32⟩ =
    .ok (.extb 3#32 10#32 5#32) := by decide

theorem test_decode_reserved : decode ⟨0b00000000000000000000000000000011#32, 0#32, 1#32, 5#32⟩ =
    .error .reservedOp := by decide

/-- CTRL's reserved bits do not matter (R55). -/
theorem test_decode_ignores_reserved_bits : decode ⟨0xFFFFFFFE#32, 1#32, 2#32, 3#32⟩ = .ok (.extb 1#32 2#32 3#32) := by
  decide

/-! ## The bit position (95_test_vectors.md §2.1) -/

theorem test_locate : locate 13 = (1, 5) ∧ locate 31 = (3, 7) ∧ locate 32 = (4, 0) := by decide

theorem test_read_bit :
    [0, 1, 7, 8, 13, 15, 16, 31, 32, 39].map (readBit (Memory.writeFrom [] 0 bufferA)) =
      [some 1, some 0, some 1, some 0, some 1, some 0, some 1, some 1, some 1, some 1] := by decide

/-! ## The commands -/

/-- U3: a field across bytes 0 and 1. -/
theorem test_extu_crosses_bytes :
    ofNext outputs (exec (.extu 3#32 10#32 5#32) (idle bufferA)) = some (2#32, 0xA7#64, 0#32, []) := by decide

/-- U21: the whole width capacity. -/
theorem test_extu_full_width :
    ofNext outputs (exec (.extu 0#32 64#32 9#32) (idle bufferB9)) = some (2#32, 0x8000000000000001#64, 0#32, []) := by
  decide

/-- S-6: a negative field across bytes 1 and 2. -/
theorem test_exts_negative :
    ofNext outputs (exec (.exts 12#32 8#32 5#32) (idle bufferA)) = some (2#32, 0xFFFFFFFFFFFFFFCF#64, 0#32, []) := by
  decide

/-- S-15: 64 bits with a sign bit of 0. -/
theorem test_exts_full_width :
    ofNext outputs (exec (.exts 1#32 64#32 9#32) (idle bufferB9)) = some (2#32, 0x0000000000000003#64, 0#32, []) := by
  decide

/-- B-2: left-justified, padded with six zeros. -/
theorem test_extb_pads :
    ofNext outputs (exec (.extb 3#32 10#32 5#32) (idle bufferA)) =
      some (2#32, 0#64, 2#32, [(0, 0x29#8), (1, 0xC0#8)]) := by decide

/-- B-17: wider than RESULT, from an odd bit. -/
theorem test_extb_wide :
    ofNext outputs (exec (.extb 1#32 71#32 9#32) (idle bufferB9)) =
      some (2#32, 0#64, 9#32, [(0, 0x00#8), (1, 0x00#8), (2, 0x00#8), (3, 0x00#8), (4, 0x00#8), (5, 0x00#8),
        (6, 0x00#8), (7, 0x03#8), (8, 0xFE#8)]) := by decide

/-- U16, U19, U18, B-12 and C-2: the order of the checks, by STATUS after the step. -/
theorem test_check_order :
    ofNext statusWord (step (inFlight 0#2 0xFFFFFFFF#32 0#32 bufferA)) = some 0x0E#32 ∧
    ofNext statusWord (step (inFlight 0#2 2147483647#32 2147483647#32 bufferA)) = some 0x0A#32 ∧
    ofNext statusWord (step (inFlight 0#2 2147483647#32 1#32 bufferA)) = some 0x06#32 ∧
    ofNext statusWord (step (inFlight 2#2 0#32 100#32 bufferA)) = some 0x06#32 ∧
    ofNext statusWord (step (inFlight 3#2 0xFFFFFFFF#32 0#32 bufferA)) = some 0x12#32 := by decide

/-- A byte nothing has written (70_reset_and_hazards.md R95): the command has no next state. -/
theorem test_unwritten_byte : ofNext statusWord (exec (.extu 8#32 8#32 5#32) (idle [0xA5#8])) = none := by decide

/-! ## The host port -/

/-- C-4: START on an idle machine with DONE = 1 and ERR = 1. -/
theorem test_start :
    ofNext statusWord (step { idle [] with
      done := true, err := 1#3, pending := [.access (.write .word 0x00014 1#32)] }) = some 0x01#32 := by decide

/-- C-5: CTRL reads back its OP bits only. -/
theorem test_ctrl_reads_back :
    ofNext State.replies (Host.Core.run core 2 { idle [] with
      pending := [.access (.write .word 0x00000 0xFFFFFFFF#32), .access (.read .word 0x00000)] }) =
      some [.word 3#32] := by decide

/-- C-10: the halves of RESULT. -/
theorem test_result_halves :
    ofNext State.replies (Host.Core.run core 2 { idle [] with
      result := 0x0123456789ABCDEF#64
      pending := [.access (.read .word 0x00018), .access (.read .word 0x0001C)] }) =
      some [.word 0x01234567#32, .word 0x89ABCDEF#32] := by decide

/-- C-6: a BUF_LEN above every capacity is ignored. -/
theorem test_buf_len_ignored :
    ofNext State.bufLen (step { idle bufferA with pending := [.access (.write .word 0x0000C 65537#32)] }) =
      some 5#32 := by
  have h : ¬uint32 65537#32 ≤ Config.bufCap := by
    have := bufCap_le
    simp only [uint32, show (65537#32).toNat = 65537 from rfl]
    omega
  rw [step_write rfl locationOf_bufLen (by decide)]
  simp only [hostWrite, writeInput, setBufLen, if_neg h]
  rfl

/-! ## The notation -/

/-- `EXTB -5, 0x0A` read, refused at 2147483648, and the transactions of program 1's first command (30_encoding.md R57 to R60). -/
theorem test_command_line :
    readCommand ['E', 'X', 'T', 'B', ' ', '-', '5', ',', ' ', '0', 'x', '0', 'A'] =
      some (.command .extb (.dec (-5)) (.hex [0, 10])) ∧
    readCommand ['E', 'X', 'T', 'U', ' ', '2', '1', '4', '7', '4', '8', '3', '6', '4', '8', ',', ' ', '1'] = none ∧
    literalValue (.dec (-5)) = some 0xFFFFFFFB#32 := by decide

theorem test_command_transactions :
    (stmtEvents (.command .extu (.dec 0) (.dec 4)) ⟨0, 0⟩).map busTransactions =
      some [.write .word 0x00004 0#32, .write .word 0x00008 4#32, .write .word 0x00000 0#32,
        .write .word 0x00014 1#32, .read .word 0x00010] := by decide

/-- `W8 @10003 = 54` of program 1. -/
theorem test_transaction_text :
    accessText (.write .byte 0x10003 0x54#32) =
      some ['W', '8', ' ', '@', '1', '0', '0', '0', '3', ' ', '=', ' ', '5', '4'] := by decide

/-! ## A command placed -/

/-- From reset with CTRL's byte alone: OFFSET, WIDTH and BUF_LEN are 0, so that the checks end the command with InvalidWidth
(60_exceptions.md R84). -/
theorem test_placed_command :
    decodeTableWord 8 0b00000010 = some (.extb 0#32 0#32 0#32) ∧
    ofNext statusWord (step (State.reset.withFetchWord 8 0b00000010)) = some 0x0A#32 := by decide

/-! ## Witnesses: the hypotheses of each obligation, met together -/

/-- The lower boundary of the integer operands: one bit at offset 0. -/
theorem intOperands_low : IntOperands 0#32 1#32 9#32 0 1 :=
  ⟨by decide, by decide, by decide, by decide, by decide⟩

/-- The upper boundary: 64 bits, ending where the buffer ends. -/
theorem intOperands_high : IntOperands 8#32 64#32 9#32 8 64 :=
  ⟨by decide, by decide, by decide, by decide, by decide⟩

theorem rawOperands_low : RawOperands 0#32 1#32 9#32 0 1 := ⟨by decide, by decide, by decide, by decide⟩

theorem rawOperands_high : RawOperands 1#32 71#32 9#32 1 71 := ⟨by decide, by decide, by decide, by decide⟩

theorem holdsB9 : HoldsBytes (idle bufferB9).buf bufferB9 := holdsBytes_writeFrom_nil bufferB9

theorem writtenB9 {o w : Nat} (hw : 1 ≤ w) (hf : o + w ≤ 72) : FieldWritten (idle bufferB9).buf o w :=
  holdsB9.fieldWritten hw hf

/-- The byte after a one-byte buffer is not written. -/
theorem notWritten : ¬FieldWritten (idle [0xA5#8]).buf 8 8 := fun h => by
  have := h 1 (by decide) (by decide)
  revert this; decide

theorem witness_DecodeOfEncodedCommand :
    128 ≤ 128 ∧ decodeTableWord 128 (encode (.extb 0xFFFFFFFF#32 0xFFFFFFFF#32 0xFFFFFFFF#32)).toNat =
      some (.extb 0xFFFFFFFF#32 0xFFFFFFFF#32 0xFFFFFFFF#32) := by decide

theorem witness_IgnoredBitsNeverChangeTheCommand :
    (0xFFFFFFFC#32).extractLsb' 0 2 = (0x00000000#32).extractLsb' 0 2 ∧
    (0xFFFFFFFF#32).extractLsb' 0 2 = (0x00000003#32).extractLsb' 0 2 ∧
    ({ idle [] with pending := [.access (.read .word 0x00000)] } : State).pending =
      .access (.read .word 0x00000) :: [] ∧
    (0xFFFFFFFF#32).getLsbD 0 = (0x00000001#32).getLsbD 0 := by decide

theorem witness_StepRunsDecodedCommand :
    (inFlight 1#2 12#32 8#32 bufferA).busy = true ∧ extractorIsNext (inFlight 1#2 12#32 8#32 bufferA) = true ∧
    extractorIsNext { inFlight 1#2 12#32 8#32 bufferA with pending := [.extractor, .reset] } = true ∧
    decode (commandWords (inFlight 1#2 12#32 8#32 bufferA)) = .ok (.exts 12#32 8#32 5#32) ∧
    (idle bufferA).busy = false ∧ extractorIsNext (idle bufferA) = true := by decide

theorem witness_ReservedOpcodeCompletesInvalidOp :
    (idle bufferA).busy = false ∧ (0xFFFFFFFF#32).extractLsb' 0 2 = 0b11#2 := by decide

theorem witness_FirstErrorIsReported :
    ((inFlight 3#2 0xFFFFFFFF#32 0#32 bufferA).busy = true ∧
      extractorIsNext (inFlight 3#2 0xFFFFFFFF#32 0#32 bufferA) = true ∧
      (inFlight 3#2 0xFFFFFFFF#32 0#32 bufferA).op = 0b11#2) ∧
    ((2#2 : BitVec 2) ≠ 0b11#2 ∧ (0xFFFFFFFF#32).toInt < 0) ∧
    (0 ≤ (0#32).toInt ∧ (0#32).toInt ≤ 0) ∧
    (0 ≤ (0#32).toInt ∧ 64 < (65#32).toInt) ∧
    (0 ≤ (0#32).toInt ∧ 0 < (64#32).toInt ∧ (64#32).toInt ≤ 64 ∧
      8 * ((7#32).toNat : Int) < (0#32).toInt + (64#32).toInt) ∧
    (0 ≤ (7#32).toInt ∧ 0 < (66#32).toInt ∧ 8 * ((9#32).toNat : Int) < (7#32).toInt + (66#32).toInt) ∧
    (∃ t, step (inFlight 0#2 39#32 2#32 bufferA) = .next t ∧ t.err ≠ 0#3) :=
  ⟨by decide, by decide, by decide, by decide, by decide, by decide, _, rfl, by decide⟩

theorem witness_ExtuCompletesWithTheFieldBits :
    (IntOperands 0#32 1#32 9#32 0 1 ∧ FieldWritten (idle bufferB9).buf 0 1) ∧
    (IntOperands 8#32 64#32 9#32 8 64 ∧ FieldWritten (idle bufferB9).buf 8 64) ∧
    (0xFFFFFFFF#32).toInt < 0 ∧ (0 ≤ (0#32).toInt ∧ (0#32).toInt ≤ 0) ∧ (0 ≤ (0#32).toInt ∧ 64 < (65#32).toInt) ∧
    (0 ≤ (9#32).toInt ∧ 1 ≤ (64#32).toInt ∧ (64#32).toInt ≤ 64 ∧
      8 * ((9#32).toNat : Int) < (9#32).toInt + (64#32).toInt) :=
  ⟨⟨intOperands_low, writtenB9 (by decide) (by decide)⟩, ⟨intOperands_high, writtenB9 (by decide) (by decide)⟩,
    by decide, by decide, by decide, by decide⟩

theorem witness_ExtsCompletesWithTheSignedField :
    (IntOperands 0#32 1#32 9#32 0 1 ∧ FieldWritten (idle bufferB9).buf 0 1) ∧
    (IntOperands 8#32 64#32 9#32 8 64 ∧ FieldWritten (idle bufferB9).buf 8 64) ∧
    (0x80000000#32).toInt < 0 ∧ (0 ≤ (0#32).toInt ∧ (0x80000000#32).toInt ≤ 0) ∧
    (0 ≤ (0#32).toInt ∧ 64 < (65#32).toInt) ∧
    (0 ≤ (0#32).toInt ∧ 1 ≤ (1#32).toInt ∧ (1#32).toInt ≤ 64 ∧
      8 * ((0#32).toNat : Int) < (0#32).toInt + (1#32).toInt) :=
  ⟨⟨intOperands_low, writtenB9 (by decide) (by decide)⟩, ⟨intOperands_high, writtenB9 (by decide) (by decide)⟩,
    by decide, by decide, by decide, by decide⟩

theorem witness_ExtbCompletesWithTheFieldBytes :
    (RawOperands 0#32 1#32 9#32 0 1 ∧ FieldWritten (idle bufferB9).buf 0 1) ∧
    (RawOperands 1#32 71#32 9#32 1 71 ∧ FieldWritten (idle bufferB9).buf 1 71) ∧
    (0xFFFFFFFB#32).toInt < 0 ∧ (0 ≤ (0#32).toInt ∧ (0#32).toInt ≤ 0) ∧
    (0 ≤ (7#32).toInt ∧ 1 ≤ (66#32).toInt ∧ 8 * ((9#32).toNat : Int) < (7#32).toInt + (66#32).toInt) :=
  ⟨⟨rawOperands_low, writtenB9 (by decide) (by decide)⟩, ⟨rawOperands_high, writtenB9 (by decide) (by decide)⟩,
    by decide, by decide, by decide⟩

theorem witness_CommandFaultsExactlyOnUnwrittenBytes :
    (IntOperands 8#32 8#32 5#32 8 8 ∧ RawOperands 8#32 8#32 5#32 8 8 ∧ ¬FieldWritten (idle [0xA5#8]).buf 8 8) ∧
    exec (.extu 8#32 8#32 5#32) (idle [0xA5#8]) = .fault .unwrittenBufferByte ∧
    exec (.extb 8#32 8#32 5#32) (idle [0xA5#8]) = .fault .unwrittenBufferByte :=
  ⟨⟨⟨by decide, by decide, by decide, by decide, by decide⟩, ⟨by decide, by decide, by decide, by decide⟩, notWritten⟩,
    rfl, rfl⟩

theorem witness_CommandFrame :
    (∃ t, exec (.extu 8#32 64#32 9#32) (idle bufferB9) = .next t) ∧
    (∃ t, exec (.exts 8#32 64#32 9#32) (idle bufferB9) = .next t) ∧
    (∃ t, exec (.extb 1#32 71#32 9#32) (idle bufferB9) = .next t) := ⟨⟨_, rfl⟩, ⟨_, rfl⟩, ⟨_, rfl⟩⟩

theorem witness_OutputsOfOtherKindsStay :
    (∃ t, exec (.extu 8#32 64#32 9#32) (idle bufferB9) = .next t) ∧
    (∃ t, exec (.extb 1#32 71#32 9#32) (idle bufferB9) = .next t ∧ t.err = 0#3 ∧ t.outLen.toNat ≤ 9) ∧
    (∃ t, exec (.extb 7#32 66#32 9#32) (idle bufferB9) = .next t ∧ t.err ≠ 0#3) :=
  ⟨⟨_, rfl⟩, ⟨_, rfl, by decide⟩, ⟨_, rfl, by decide⟩⟩

theorem witness_ErrorCompletionWritesOnlyStatus :
    ∃ t, exec (.exts 0#32 65#32 9#32) (idle bufferB9) = .next t ∧ t.err ≠ 0#3 := ⟨_, rfl, by decide⟩

theorem witness_AccumulatorIsTheBigEndianSlice :
    HoldsBytes (idle bufferB9).buf bufferB9 ∧ 1 ≤ 64 ∧ 8 + 64 ≤ 8 * bufferB9.length := ⟨holdsB9, by decide, by decide⟩

theorem witness_ResultsAreSlicesOfTheBuffer :
    bufferB9.length = (9#32).toNat ∧ HoldsBytes (idle bufferB9).buf bufferB9 ∧
    IntOperands 8#32 64#32 9#32 8 64 ∧ RawOperands 1#32 71#32 9#32 1 71 :=
  ⟨rfl, holdsB9, intOperands_high, rawOperands_high⟩

theorem witness_IntegerResultsLieInRange :
    IntOperands 8#32 64#32 9#32 8 64 ∧ (∃ t, exec (.extu 8#32 64#32 9#32) (idle bufferB9) = .next t) ∧
    (∃ t, exec (.exts 8#32 64#32 9#32) (idle bufferB9) = .next t) := ⟨intOperands_high, ⟨_, rfl⟩, ⟨_, rfl⟩⟩

theorem witness_ExtsEqualsExtuOnSignBitZero :
    (1#32).toInt = ((1 : Nat) : Int) ∧ BitIs (idle bufferB9).buf 1 false := ⟨by decide, 0x80#8, by decide, by decide⟩

/-- 11 bits at 61: bytes 7 and 8, with no middle byte; 20 bits at 52: bytes 6 and 8 around byte 7. -/
theorem witness_ByteBoundariesAreCrossed :
    (IntOperands 61#32 11#32 9#32 61 11 ∧ (61 + 11 - 1) / 8 = 61 / 8 + 1 + ([] : List Byte).length ∧
      (idle bufferB9).buf.read (61 / 8) = some 0x01#8 ∧ (idle bufferB9).buf.read ((61 + 11 - 1) / 8) = some 0xFF#8) ∧
    (IntOperands 52#32 20#32 9#32 52 20 ∧ (52 + 20 - 1) / 8 = 52 / 8 + 1 + [0x01#8].length ∧
      (idle bufferB9).buf.read (52 / 8) = some 0x00#8 ∧
      (∀ k, (h : k < [0x01#8].length) → (idle bufferB9).buf.read (52 / 8 + 1 + k) = some [0x01#8][k]) ∧
      (idle bufferB9).buf.read ((52 + 20 - 1) / 8) = some 0xFF#8) :=
  ⟨⟨⟨by decide, by decide, by decide, by decide, by decide⟩, by decide⟩,
    ⟨by decide, by decide, by decide, by decide, by decide⟩, by decide, by decide, by decide, by decide⟩

theorem witness_PackedValueIsReadBack :
    IntOperands 0#32 1#32 9#32 0 1 ∧ 1 < 2 ^ 1 ∧
      ∀ i < 1, BitIs (idle bufferB9).buf (0 + i) ((1 : Nat).testBit (1 - 1 - i)) :=
  ⟨intOperands_low, by decide, fun i hi => by
    obtain rfl : i = 0 := by omega
    exact ⟨0x80#8, by decide, by decide⟩⟩

theorem witness_SignedFormsAgree :
    1 ≤ 64 ∧ (2 ^ 64 - 1 < 2 ^ 64 ∧ (2 ^ 64 - 1 : Nat).testBit (64 - 1) = true) ∧
    (0 < 2 ^ 1 ∧ (0 : Nat).testBit (1 - 1) = false) := by decide

theorem witness_RawAndIntegerExtractionAgree :
    RawOperands 1#32 71#32 9#32 1 71 ∧ FieldWritten (idle bufferB9).buf 1 71 ∧
    RawOperands 8#32 64#32 9#32 8 64 ∧ FieldWritten (idle bufferB9).buf 8 64 ∧ 64 ≤ 64 :=
  ⟨rawOperands_high, writtenB9 (by decide) (by decide), ⟨by decide, by decide, by decide, by decide⟩,
    writtenB9 (by decide) (by decide), by decide⟩

theorem witness_WholeBufferIsCopied :
    bufferB9.length = (9#32).toNat ∧ HoldsBytes (idle bufferB9).buf bufferB9 ∧
    RawOperands 0#32 72#32 9#32 0 (8 * (9#32).toNat) :=
  ⟨rfl, holdsB9, by decide, by decide, by decide, by decide⟩

/-- A one-byte buffer, legal whatever BUF_CAP is. -/
theorem inv_one (op : BitVec 2) : Inv (inFlight op 0#32 8#32 [0xA5#8]) where
  bufWf := by simp [inFlight, idle, Memory.writeFrom, Memory.write]
  bufBelow := by
    intro c hc
    have : c = (0, 0xA5#8) := by simpa [inFlight, idle, Memory.writeFrom, Memory.write] using hc
    rw [this]; exact bufCap_pos
  outBytes := rfl
  outFits := Nat.zero_le _
  lenLegal := bufCap_pos
  notBoth := by simp [inFlight, idle, State.reset]
  errLegal := by simp [inFlight, idle, State.reset]
  errOnlyDone := by simp [inFlight, idle, State.reset]
  bufDrawn := by simp [inFlight, idle, State.reset]
  outDrawn := by simp [inFlight, idle, State.reset]

theorem witness_OutputLengthIsCeilOfWidth :
    Inv (inFlight 2#2 0#32 8#32 [0xA5#8]) ∧ (inFlight 2#2 0#32 8#32 [0xA5#8]).busy = true ∧
    extractorIsNext (inFlight 2#2 0#32 8#32 [0xA5#8]) = true ∧ (inFlight 2#2 0#32 8#32 [0xA5#8]).op = 0b10#2 ∧
    ∃ t, step (inFlight 2#2 0#32 8#32 [0xA5#8]) = .next t ∧ t.err = 0#3 :=
  ⟨inv_one 2#2, rfl, rfl, rfl, _, rfl, rfl⟩

/-- Two states that differ in RESULT and in a byte past L. -/
theorem witness_CommandsArePure :
    (∀ k < 1, Memory.read [(0, 0xA5#8)] k = Memory.read [(0, 0xA5#8), (1, 0xFF#8)] k) ∧
    (∃ s', completeCommand (inFlight 0#2 0#32 8#32 [0xA5#8]) = .next s' ∧ s'.err = 0#3) ∧
    (∃ s', completeCommand (inFlight 2#2 0#32 8#32 [0xA5#8]) = .next s' ∧ s'.err = 0#3 ∧ 0 < s'.outLen.toNat) ∧
    (∃ s', completeCommand (inFlight 3#2 0#32 8#32 [0xA5#8]) = .next s' ∧ s'.err ≠ 0#3) :=
  ⟨by decide, ⟨_, rfl, rfl⟩, ⟨_, rfl, rfl, by decide⟩, ⟨_, rfl, by decide⟩⟩

theorem witness_ReadBitIsTheStreamBit :
    0 < 8 ∧ 7 < 8 ∧ (idle bufferA).buf.read 4 = some 0x81#8 := by decide

theorem witness_AcceptedStartSetsBusy :
    ({ idle [] with pending := [.access (.write .word 0x00014 0xFFFFFFFF#32)] } : State).pending =
      .access (.write .word 0x00014 0xFFFFFFFF#32) :: [] ∧
    (0xFFFFFFFF#32).getLsbD 0 = true ∧ (0x00000001#32).getLsbD 0 = true ∧ (idle []).busy = false := by decide

theorem witness_StartIsIgnoredWhileBusy :
    ({ inFlight 0#2 0#32 8#32 bufferA with pending := [.access (.write .word 0x00014 1#32)] } : State).busy = true ∧
    (0xFFFFFFFE#32).getLsbD 0 = false := by decide

theorem witness_OperandRegistersReadBackAsWritten : (idle bufferA).busy = false := rfl

theorem witness_BufLenTakesOnlyLegalValues :
    (idle bufferA).busy = false ∧ (0x00000001#32).toNat ≤ Config.bufCap ∧ Config.bufCap < (65537#32).toNat :=
  ⟨rfl, bufCap_pos, Nat.lt_succ_of_le bufCap_le⟩

/-- BUF_CAP itself is a legal BUF_LEN, the next number is not. -/
theorem witness_BufLenTakesOnlyLegalValues_boundary :
    (BitVec.ofNat 32 Config.bufCap).toNat ≤ Config.bufCap ∧
    Config.bufCap < (BitVec.ofNat 32 (Config.bufCap + 1)).toNat := by
  have := bufCap_le
  simp only [BitVec.toNat_ofNat]
  omega

theorem witness_BufferByteIsWrittenAndReadBack :
    (idle bufferA).busy = false ∧ 0 < Config.bufCap ∧ Config.bufCap - 1 < Config.bufCap := by
  have := bufCap_pos
  exact ⟨rfl, by omega, by omega⟩

theorem witness_ReadOnlyLocationsIgnoreWrites :
    ({ idle [] with pending := [.access (.write .word 0x0FFFC 1#32)] } : State).pending =
      .access (.write .word 0x0FFFC 1#32) :: [] ∧
    (0x00024 ≤ 0x00024 ∧ 0x00024 % 4 = 0) ∧ (0x0FFFC < 0x10000 ∧ 0x0FFFC % 4 = 0) ∧
    (0x20000 ≤ 0x20000 ∧ 0x2FFFF < 0x30000) := by decide

/-- The BUF window past BUF_CAP is reached wherever BUF_CAP is below its largest value. -/
theorem witness_ReadOnlyLocationsIgnoreWrites_pastBuf (h : Config.bufCap < 65536) :
    0x10000 + Config.bufCap ≤ 0x1FFFF ∧ 0x1FFFF < 0x20000 := by omega

theorem witness_InputWritesWhileBusyAreRefused :
    (inFlight 0#2 0#32 8#32 bufferA).busy = true ∧
    ({ inFlight 0#2 0#32 8#32 bufferA with pending := [.access (.write .word 0x0000C 5#32)] } : State).pending =
      .access (.write .word 0x0000C 5#32) :: [] ∧
    0x10000 + 0 < 0x10000 + Config.bufCap ∧ 0x10000 + (Config.bufCap - 1) < 0x10000 + Config.bufCap := by
  have := bufCap_pos
  exact ⟨rfl, rfl, by omega, by omega⟩

theorem witness_StatusReadsItsFlags :
    ({ idle [] with pending := [.access (.read .word 0x00010)] } : State).pending =
      .access (.read .word 0x00010) :: [] := rfl

theorem witness_IdleReadsReturnTheState :
    (idle bufferA).busy = false ∧ (idle bufferA).buf.read 0 = some 0xA5#8 ∧ 0 < Config.bufCap ∧
    Memory.read (Memory.writeFrom [] 0 bufferA) 0 = some 0xA5#8 ∧ 0 < Config.outCap :=
  ⟨rfl, rfl, bufCap_pos, rfl, bufCap_pos⟩

theorem witness_BusyReadsComplete :
    (inFlight 0#2 0#32 8#32 bufferA).busy = true ∧ (inFlight 0#2 0#32 8#32 bufferA).buf.read 0 = some 0xA5#8 ∧
    0 < Config.bufCap ∧ 0 < Config.outCap := ⟨rfl, rfl, bufCap_pos, bufCap_pos⟩

theorem witness_ReadsHaveNoSideEffect :
    (∃ t, step { idle [] with pending := [.access (.read .word 0x00018), .access (.read .word 0x00018)] } = .next t) ∧
    (idle []).busy = false ∧
    ∃ t, Host.Core.run core 2
      { idle [] with pending := [.access (.read .word 0x00018), .access (.read .word 0x00018)] } = .next t :=
  ⟨⟨_, rfl⟩, rfl, _, rfl⟩

theorem witness_ReservedSpaceReadsZero :
    (0x00024 ≤ 0x00024 ∧ 0x00024 < 0x10000 ∧ 0x00024 % 4 = 0) ∧
    (0x00024 ≤ 0x0FFFC ∧ 0x0FFFC < 0x10000 ∧ 0x0FFFC % 4 = 0) ∧ (idle []).busy = false := by decide

/-- The windows past their capacities, wherever BUF_CAP is below its largest value. -/
theorem witness_ReservedSpaceReadsZero_windows (h : Config.bufCap < 65536) :
    (0x10000 + Config.bufCap ≤ 0x1FFFF ∧ 0x1FFFF < 0x20000) ∧
    (0x20000 + Config.outCap ≤ 0x2FFFF ∧ 0x2FFFF < 0x30000) := by
  simp only [Config.outCap]; omega

theorem witness_OtherAccessFormsAreNoMoves :
    (∃ a rest, ({ idle [] with pending := [.access (.read .half 0x0FFFE)] } : State).pending = .access a :: rest ∧
      accessOff a < 0x10000 ∧ accessSize a ≠ .word) ∧
    (accessOff (.write .word 0x00001 0#32) < 0x10000 ∧ accessOff (.write .word 0x00001 0#32) % 4 ≠ 0) ∧
    (0x10000 ≤ accessOff (.read .word 0x10000) ∧ accessOff (.read .word 0x10000) < 0x30000 ∧
      accessSize (.read .word 0x10000) ≠ .byte) ∧
    0x30000 ≤ accessOff (.read .byte 0x30000) ∧
    (step { idle [] with pending := [.access (.read .half 0x0FFFE)] } = .refused .accessForm) :=
  ⟨⟨_, _, rfl, by decide⟩, by decide, by decide, by decide, rfl⟩

theorem witness_AddressesAreRelativeToTheBase :
    accessOff (.read .byte 0x2FFFF) < 0x30000 ∧ 0x30000 ≤ accessOff (.read .byte 0x30000) := by decide

theorem witness_ResetInputRestoresResetValues :
    ({ inFlight 0#2 0#32 8#32 bufferA with pending := [.reset] } : State).pending = .reset :: [] := rfl

theorem witness_StepKeepsInvariant :
    Inv (inFlight 0#2 0#32 8#32 [0xA5#8]) ∧ ∃ t, step (inFlight 0#2 0#32 8#32 [0xA5#8]) = .next t :=
  ⟨inv_one 0#2, _, rfl⟩

theorem witness_CommandInFlightCompletes :
    (inFlight 0#2 0#32 8#32 bufferA).busy = true ∧
    ∀ e ∈ [Event.access (.read .word 0x00010), .access (.write .word 0x00014 1#32), .extractor,
      .access (.write .byte 0x20000 0#32)], harmless e = true := by
  refine ⟨rfl, ?_⟩
  have h : harmless (.access (.write .byte 0x20000 0#32)) = true := by
    simp only [harmless, dutyKept, accessOff, show locationOf 0x20000 = some (.out 0) from locationOf_outByte bufCap_pos]
    decide
  intro e he
  fin_cases he
  · decide
  · decide
  · decide
  · exact h

theorem witness_StepStopsOnlyOnBrokenDutiesAndUnwrittenBytes :
    (step { inFlight 0#2 0#32 8#32 bufferA with pending := [.access (.write .word 0x00004 1#32)] } =
      .refused .inputWriteWhileBusy) ∧
    (step { idle [] with pending := [.access (.read .byte 0x30000)] } = .fault .outsideBfx) ∧
    (step { inFlight 0#2 8#32 8#32 [0xA5#8] with bufLen := 2#32 } = .fault .unwrittenBufferByte) ∧
    (∃ a rest, ({ inFlight 0#2 0#32 8#32 bufferA with pending := [.access (.read .word 0x00010)] } : State).pending =
      .access a :: rest ∧ dutyKept true a = true) :=
  ⟨rfl, rfl, rfl, _, _, rfl, by decide⟩

theorem witness_ResultsPersist :
    (∃ t, step (inFlight 0#2 0#32 8#32 bufferA) = .next t ∧ t.result ≠ (inFlight 0#2 0#32 8#32 bufferA).result) ∧
    (∃ t, step (inFlight 2#2 0#32 8#32 bufferA) = .next t ∧ t.outLen ≠ (inFlight 2#2 0#32 8#32 bufferA).outLen) ∧
    (∃ t, step { idle [] with done := true, err := 1#3, pending := [.access (.write .word 0x00014 1#32)] } = .next t ∧
      t.err ≠ 1#3) ∧
    (∀ rest, (inFlight 0#2 0#32 8#32 bufferA).pending ≠ .reset :: rest) :=
  ⟨⟨_, rfl, by decide⟩, ⟨_, rfl, by decide⟩, ⟨_, rfl, by decide⟩, fun _ h => by cases h⟩

theorem witness_ExtractorNeverWritesInputs :
    extractorIsNext (inFlight 2#2 0#32 8#32 bufferA) = true ∧ ∃ t, step (inFlight 2#2 0#32 8#32 bufferA) = .next t :=
  ⟨rfl, _, rfl⟩

theorem witness_OnlyStartBeginsACommand :
    (∃ t, step { idle [] with pending := [.access (.write .word 0x00014 1#32)] } = .next t ∧ t.busy = true) ∧
    (∃ t, step (inFlight 2#2 0#32 8#32 bufferA) = .next t ∧ t.busy = false) :=
  ⟨⟨_, rfl, rfl⟩, _, rfl, rfl⟩

/-- Ended with nothing left, with an extractor's turn left, and with a reset left. -/
theorem witness_EndedRunStaysAsItIs :
    runEnded (idle bufferA) = true ∧
    (runEnded { idle bufferA with pending := [.extractor] } = true ∧ Event.reset ∉ [Event.extractor]) ∧
    runEnded { idle bufferA with pending := [.reset] } = true ∧ (inFlight 0#2 0#32 8#32 bufferA).busy = true ∧
    Event.access (.read .word 0x00010) ∈ [Event.extractor, .access (.read .word 0x00010)] := by decide

theorem witness_StatusReadAfterStartMayFindEither :
    (idle bufferA).busy = false ∧
    ∃ u, completeCommand { idle bufferA with
      width := 8#32, busy := true, done := false, err := 0#3, pending := [.access (.read .word 0x00010)] } = .next u :=
  ⟨rfl, _, rfl⟩

theorem witness_LiteralsAreRangeChecked :
    ((-2 : Int) ^ 31 ≤ -2 ^ 31 ∧ (2 : Int) ^ 31 - 1 ≤ 2 ^ 31 - 1) ∧
    ((-2 : Int) ^ 31 - 1 < -2 ^ 31 ∧ (2 : Int) ^ 31 - 1 < 2 ^ 31) ∧
    (1 ≤ ([0] : List (Fin 16)).length ∧ (List.replicate 8 (15 : Fin 16)).length ≤ 8) ∧
    8 < (List.replicate 9 (0 : Fin 16)).length := by decide

theorem witness_CommandExpansionStartsTheCommand : (idle bufferA).busy = false := rfl

/-- No byte, and one byte: both fit whatever BUF_CAP is. -/
theorem witness_LoadbufExpansionLoadsTheBuffer :
    (idle []).busy = false ∧ ([] : List Byte).length ≤ Config.bufCap ∧ [0xA5#8].length ≤ Config.bufCap :=
  ⟨rfl, Nat.zero_le _, bufCap_pos⟩

theorem witness_PollEndsWithDone :
    (inFlight 2#2 0#32 8#32 bufferA).busy = true ∧ ∃ u, completeCommand (inFlight 2#2 0#32 8#32 bufferA) = .next u :=
  ⟨rfl, _, rfl⟩

theorem witness_GetresReadsTheResult : (idle bufferA).busy = false := rfl

theorem witness_GetoutReadsTheOutput :
    HoldsBytes (Memory.writeFrom [] 0 [0xA5#8]) [0xA5#8] ∧ (1#32).toNat = [0xA5#8].length ∧
    [0xA5#8].length ≤ Config.outCap := ⟨holdsBytes_writeFrom_nil _, rfl, bufCap_pos⟩

/-- From the reset state's own draws: a reset input, and a first EXTB. -/
theorem witness_UnspecifiedBytesAreDrawnAfresh :
    (Inv (inFlight 2#2 0#32 8#32 [0xA5#8]) ∧ (inFlight 2#2 0#32 8#32 [0xA5#8]).outDraw = State.reset.outDraw ∧
      (∃ t, step (inFlight 2#2 0#32 8#32 [0xA5#8]) = .next t ∧ t.err = 0#3)) ∧
    ∃ t, step { State.reset with pending := [.reset] } = .next t ∧ t.outDraw ≠ State.reset.outDraw ∧
      t.bufDraw ≠ State.reset.bufDraw :=
  ⟨⟨inv_one 2#2, rfl, _, rfl, rfl⟩, _, rfl, by decide, by decide⟩

end Sys2Proof.Tests
end

section
/-! The invariant of the whole machine: each operation of the model keeps it, so every step does. -/

namespace Sys2Proof.Machine

variable {s t : State}

/-- Nothing is known in either memory, no command has run, and draw 0 is already made (10_state.md R31). -/
theorem inv_reset : Inv State.reset where
  bufWf := Memory.wf_nil
  bufBelow := by simp [State.reset]
  outBytes := rfl
  outFits := Nat.zero_le _
  lenLegal := Nat.zero_le _
  notBoth := by simp [State.reset]
  errLegal := Nat.zero_le _
  errOnlyDone := by simp [State.reset]
  bufDrawn := Nat.zero_lt_one
  outDrawn := Nat.zero_lt_one

theorem Inv.popEvent (h : Inv s) : Inv (popEvent s) :=
  h.congr rfl rfl rfl rfl rfl rfl rfl h.bufDrawn h.outDrawn

/-- The reset input leaves the reset values and makes the draw that it puts behind the bytes. -/
theorem inv_resetInput (s : State) : Inv (resetInput s) :=
  inv_reset.congr rfl rfl rfl rfl rfl rfl rfl (Nat.lt_succ_self _) (Nat.lt_succ_self _)

theorem Inv.onStart (h : Inv s) : Inv (onStart s) :=
  { h with notBoth := by simp, errLegal := by simp, errOnlyDone := by simp }

theorem Inv.succeed (h : Inv s) : Inv (succeed s) :=
  { h with notBoth := by simp, errLegal := by simp, errOnlyDone := by simp }

theorem Inv.setResult (h : Inv s) (r : DWord) : Inv (setResult r s) :=
  h.congr rfl rfl rfl rfl rfl rfl rfl h.bufDrawn h.outDrawn

/-- A staging of at most OUT_CAP bytes fills OUT below the new OUT_LEN: 65536 bytes do not wrap a 32-bit OUT_LEN. -/
theorem Inv.setOut (h : Inv s) {bytes : List Byte} (hfit : bytes.length ≤ Config.outCap) : Inv (setOut bytes s) := by
  have hlen : (Machine.setOut bytes s).outLen.toNat = bytes.length := by
    have : Config.outCap ≤ 65536 := bufCap_le
    rw [setOut_outLen, BitVec.toNat_ofNat, Nat.mod_eq_of_lt (by omega)]
  exact { h with
    outBytes := by rw [hlen, setOut_out, Memory.map_fst_writeFrom_nil]
    outFits := hlen ▸ hfit
    bufDrawn := Nat.lt_succ_of_lt h.bufDrawn
    outDrawn := Nat.lt_succ_self _ }

/-- A read only replies and draws (20_memory.md R44). -/
theorem Inv.hostRead (h : Inv s) (l : Location) : Inv (hostRead l s) := by
  obtain ⟨r, k, hr⟩ := hostRead_cases l s
  rw [hr]
  exact h.congr rfl rfl rfl rfl rfl rfl rfl (Nat.lt_add_right k h.bufDrawn) (Nat.lt_add_right k h.outDrawn)

/-- A write keeps the invariant where the register map keeps BUF indices below BUF_CAP. -/
theorem Inv.hostWrite (h : Inv s) {l : Location} {v : Word} (hl : ∀ i, l = .buf i → i < Config.bufCap)
    (ht : hostWrite l v s = .next t) : Inv t := by
  cases hin : isInput l with
  | false =>
    rcases hostWrite_other v s hin with ⟨-, -, -, hw⟩ | ⟨-, hw⟩ <;> rw [hw] at ht <;> cases ht
    · exact h.onStart
    · exact h
  | true =>
    cases hb : s.busy with
    | true => rw [hostWrite_busy v hin hb] at ht; cases ht
    | false =>
      rcases hostWrite_input v hin hb with
        ⟨-, hw⟩ | ⟨-, hw⟩ | ⟨-, hw⟩ | ⟨-, hv, hw⟩ | ⟨-, -, hw⟩ | ⟨i, hi, hw⟩ <;> rw [hw] at ht <;> cases ht
      · exact { h with }
      · exact { h with }
      · exact { h with }
      · exact { h with lenLegal := hv }
      · exact h
      · exact { h with
          bufWf := Memory.write_wf h.bufWf _ _
          bufBelow := Memory.write_below h.bufBelow (hl i hi) _ }

theorem Inv.hostTurn (h : Inv s) {a : Access} (ht : hostTurn a s = .next t) : Inv t := by
  rcases hostTurn_cases a s with
    ⟨-, ha⟩ | ⟨l, -, -, ha⟩ | ⟨l, hl, -, ⟨size, off, -, ha⟩ | ⟨size, off, v, -, ha⟩⟩ <;> rw [ha] at ht
  · cases ht
  · cases ht
  · cases ht; exact h.hostRead l
  · exact h.hostWrite (fun i hi => (locationOf_buf (hi ▸ hl)).1) ht

/-- A raw extraction stages no more bytes than the buffer it reads (42_raw_extract.md R76). -/
theorem extb_length_le {buf : Memory} {offset width len : Word} {o w : Nat} {bytes : List Byte}
    (hops : RawOperands offset width len o w) (hb : extb buf o w = some bytes) : bytes.length ≤ len.toNat := by
  have hlen : bytes.length = outBytes w := (extbLoop_spec hb (le_refl w)).1
  have hfits := hops.fits
  rw [hlen, outBytes]
  omega

/-- Every next state of a command: an error completion, a new RESULT of an integer extraction, or a new OUT of an
EXTB, no longer than the buffer. -/
theorem exec_next {i : Instr} (ht : exec i s = .next t) :
    (∃ e, t = errorCompletion e s) ∨
    ((∃ offset width len, i = .extu offset width len ∨ i = .exts offset width len) ∧ ∃ r, t = succeed (setResult r s)) ∨
    ∃ bytes, bytes.length ≤ i.len.toNat ∧ t = succeed (setOut bytes s) := by
  rcases exec_cases i s with
    ⟨e, he⟩ | he | ⟨r, hi, he⟩ | ⟨o, w, bytes, ⟨offset, width, len, rfl, hops⟩, hb, he⟩ <;> rw [he] at ht <;> cases ht
  · exact .inl ⟨e, rfl⟩
  · exact .inr (.inl ⟨hi, r, rfl⟩)
  · exact .inr (.inr ⟨bytes, extb_length_le hops hb, rfl⟩)

/-- A command with a legal LEN keeps the invariant: OUT_CAP is BUF_CAP (00_scope.md R7), so what it stages fits. -/
theorem Inv.exec (h : Inv s) {i : Instr} (ht : exec i s = .next t) (hi : i.WellFormed) : Inv t := by
  rcases exec_next ht with ⟨e, rfl⟩ | ⟨-, r, rfl⟩ | ⟨bytes, hlen, rfl⟩
  · exact h.errorCompletion e
  · exact (h.setResult r).succeed
  · exact (h.setOut (hlen.trans hi)).succeed

/-- The invariant makes BUF_LEN, the LEN of the command in the registers, legal. -/
theorem Inv.completeCommand (h : Inv s) (ht : completeCommand s = .next t) : Inv t := by
  rcases completeCommand_cases s with ⟨-, hc⟩ | ⟨-, hc⟩ | ⟨-, hc⟩ | ⟨-, hc⟩ <;> rw [hc] at ht
  · exact h.exec ht h.lenLegal
  · exact h.exec ht h.lenLegal
  · exact h.exec ht h.lenLegal
  · cases ht; exact h.errorCompletion _

/-- Settles O45, by the event the step takes: the extractor's turn, a host access or the reset input. -/
theorem stepKeepsInvariant : Obligations.StepKeepsInvariant := by
  intro s t h ht
  rcases event_cases s with he | ⟨a, rest, he⟩ | ⟨rest, he⟩
  · rw [step_extractor he] at ht
    split at ht
    · exact h.popEvent.completeCommand ht
    · cases ht; exact h.popEvent
  · rw [step_access he] at ht
    exact h.popEvent.hostTurn ht
  · rw [step_reset he] at ht
    cases ht; exact inv_resetInput _

/-- Settles O44, field by field of the invariant. -/
theorem resetSatisfiesInvariant : Obligations.ResetSatisfiesInvariant := inv_reset

/-- Settles O42, row by row of R31's table. -/
theorem resetStateIsAllZeroAndIdle : Obligations.ResetStateIsAllZeroAndIdle :=
  ⟨rfl, rfl, rfl, rfl, rfl, rfl, rfl, rfl, rfl, Memory.read_nil, Memory.read_nil⟩

end Sys2Proof.Machine
end

section
/-! The draws behind the UNSPECIFIED bytes (10_state.md R29, R31; 92_eei_decisions.md D18). -/

namespace Sys2Proof.Machine

variable {s t : State}

/-- A completion with OP = EXTB that reports no error has put new bytes into OUT. -/
theorem completeCommand_extb_ok (hop : s.op = 2#2) (ht : completeCommand s = .next t) (herr : t.err = 0#3) :
    ∃ bytes, t = succeed (setOut bytes s) := by
  rcases completeCommand_cases s with ⟨ho, -⟩ | ⟨ho, -⟩ | ⟨-, hc⟩ | ⟨ho, -⟩
  · simp [hop] at ho
  · simp [hop] at ho
  · rw [hc] at ht
    rcases exec_next ht with ⟨e, rfl⟩ | ⟨⟨_, _, _, hi⟩, -⟩ | ⟨bytes, -, ht'⟩
    · exact absurd herr (errCode_ne_zero e)
    · simp at hi
    · exact ⟨bytes, ht'⟩
  · simp [hop] at ho

/-- Settles O59: both take the next draw, which the invariant puts past the two in use. -/
theorem unspecifiedBytesAreDrawnAfresh : Obligations.UnspecifiedBytesAreDrawnAfresh := by
  intro s t h ht
  refine ⟨fun ⟨rest, hp⟩ => ?_, fun hbusy hext hop herr => ?_⟩
  · rw [step_reset hp] at ht
    cases ht
    exact ⟨h.outDrawn, h.bufDrawn, h.outDrawn, h.bufDrawn⟩
  · rw [step_extractor hext, if_pos hbusy] at ht
    obtain ⟨bytes, rfl⟩ := completeCommand_extb_ok (s := popEvent s) hop ht herr
    exact ⟨h.outDrawn, h.bufDrawn, rfl⟩

end Sys2Proof.Machine
end

section
/-! The host port location by location: the effect of each access as a step, and what STATUS and CTRL read. -/

namespace Sys2Proof.Machine

variable {s : State} {v : Word} {rest : List Event}

/-- An input write goes through while idle (70_reset_and_hazards.md R97 forbids it only while BUSY = 1). -/
theorem writeInput_idle (hidle : s.busy = false) (t : State) : writeInput s t = .next t := by
  simp [writeInput, hidle]

/-- A result register reads as it stands while idle. -/
theorem readResultWord_idle (hidle : s.busy = false) (v : Word) : readResultWord v s = replyWord v s := by
  simp [readResultWord, hidle]

/-! ### Writes while idle -/

theorem step_write_ctrl (hidle : s.busy = false) (h : s.pending = .access (.write .word 0x00000 v) :: rest) :
    step s = .next { s with pending := rest, op := opField v } :=
  (step_write h locationOf_ctrl rfl).trans (writeInput_idle hidle _)

theorem step_write_offset (hidle : s.busy = false) (h : s.pending = .access (.write .word 0x00004 v) :: rest) :
    step s = .next { s with pending := rest, offset := v } :=
  (step_write h locationOf_offset rfl).trans (writeInput_idle hidle _)

theorem step_write_width (hidle : s.busy = false) (h : s.pending = .access (.write .word 0x00008 v) :: rest) :
    step s = .next { s with pending := rest, width := v } :=
  (step_write h locationOf_width rfl).trans (writeInput_idle hidle _)

theorem step_write_bufLen (hidle : s.busy = false) (h : s.pending = .access (.write .word 0x0000C v) :: rest) :
    step s = .next (setBufLen v { s with pending := rest }) :=
  (step_write h locationOf_bufLen rfl).trans (writeInput_idle hidle _)

theorem step_write_bufByte {i : Nat} (hi : i < Config.bufCap) (hidle : s.busy = false)
    (h : s.pending = .access (.write .byte (0x10000 + i) v) :: rest) :
    step s = .next { s with pending := rest, buf := s.buf.write i (v.extractLsb' 0 8) } :=
  (step_write h (locationOf_bufByte hi) (accessPermitted_byte (by omega))).trans (writeInput_idle hidle _)

/-! ### Reads, idle or busy -/

theorem step_read_ctrl (h : s.pending = .access (.read .word 0x00000) :: rest) :
    step s = .next { s with pending := rest, replies := .word (s.op.setWidth 32) :: s.replies } :=
  step_read h locationOf_ctrl rfl

theorem step_read_offset (h : s.pending = .access (.read .word 0x00004) :: rest) :
    step s = .next { s with pending := rest, replies := .word s.offset :: s.replies } :=
  step_read h locationOf_offset rfl

theorem step_read_width (h : s.pending = .access (.read .word 0x00008) :: rest) :
    step s = .next { s with pending := rest, replies := .word s.width :: s.replies } :=
  step_read h locationOf_width rfl

theorem step_read_bufLen (h : s.pending = .access (.read .word 0x0000C) :: rest) :
    step s = .next { s with pending := rest, replies := .word s.bufLen :: s.replies } :=
  step_read h locationOf_bufLen rfl

theorem step_read_status (h : s.pending = .access (.read .word 0x00010) :: rest) :
    step s = .next { s with pending := rest, replies := .word (statusWord s) :: s.replies } :=
  step_read h locationOf_status rfl

theorem step_read_start (h : s.pending = .access (.read .word 0x00014) :: rest) :
    step s = .next { s with pending := rest, replies := .word 0#32 :: s.replies } :=
  step_read h locationOf_start rfl

theorem step_read_bufByte {i : Nat} {byte : Byte} (hi : i < Config.bufCap) (hbyte : s.buf.read i = some byte)
    (h : s.pending = .access (.read .byte (0x10000 + i)) :: rest) :
    step s = .next { s with pending := rest, replies := .byte byte :: s.replies } := by
  rw [step_read h (locationOf_bufByte hi) (accessPermitted_byte (by omega))]
  simp [hostRead, replyByte, bufByte, hbyte]

/-! ### Reads of the results while idle -/

theorem step_read_resultLo (hidle : s.busy = false) (h : s.pending = .access (.read .word 0x00018) :: rest) :
    step s = .next { s with pending := rest, replies := .word (s.result.extractLsb' 0 32) :: s.replies } := by
  rw [step_read h locationOf_resultLo rfl]
  simp [hostRead, readResultWord_idle, hidle, replyWord]

theorem step_read_resultHi (hidle : s.busy = false) (h : s.pending = .access (.read .word 0x0001C) :: rest) :
    step s = .next { s with pending := rest, replies := .word (s.result.extractLsb' 32 32) :: s.replies } := by
  rw [step_read h locationOf_resultHi rfl]
  simp [hostRead, readResultWord_idle, hidle, replyWord]

theorem step_read_outLen (hidle : s.busy = false) (h : s.pending = .access (.read .word 0x00020) :: rest) :
    step s = .next { s with pending := rest, replies := .word s.outLen :: s.replies } := by
  rw [step_read h locationOf_outLen rfl]
  simp [hostRead, readResultWord_idle, hidle, replyWord]

theorem step_read_outByte {j : Nat} {byte : Byte} (hj : j < Config.outCap) (hidle : s.busy = false)
    (hbyte : s.out.read j = some byte) (h : s.pending = .access (.read .byte (0x20000 + j)) :: rest) :
    step s = .next { s with pending := rest, replies := .byte byte :: s.replies } := by
  rw [step_read h (locationOf_outByte hj) (accessPermitted_byte (by omega))]
  simp [hostRead, replyByte, outByte, hidle, hbyte]

/-! ### The reserved space (10_state.md R30), idle or busy -/

/-- The reserved words below the windows. -/
theorem step_access_reserved (s : State) {off : Nat} (hlo : 0x00024 ≤ off) (hhi : off < 0x10000) (halign : off % 4 = 0) :
    step { s with pending := .access (.read .word off) :: rest } =
      .next { s with pending := rest, replies := .word 0#32 :: s.replies } ∧
    step { s with pending := .access (.write .word off v) :: rest } = .next { s with pending := rest } :=
  have hl := locationOf_reserved hlo hhi
  have hp := accessPermitted_word hhi halign
  ⟨(step_read rfl hl hp).trans rfl, step_write rfl hl hp⟩

/-- The window bytes past the capacities. -/
theorem step_access_pastCapacity (s : State) {off : Nat}
    (hoff : (0x10000 + Config.bufCap ≤ off ∧ off < 0x20000) ∨ (0x20000 + Config.outCap ≤ off ∧ off < 0x30000)) :
    step { s with pending := .access (.read .byte off) :: rest } =
      .next { s with pending := rest, replies := .byte 0#8 :: s.replies } ∧
    step { s with pending := .access (.write .byte off v) :: rest } = .next { s with pending := rest } := by
  have hp : accessPermitted .byte off = true := accessPermitted_byte (by omega)
  rcases hoff with ⟨hlo, hhi⟩ | ⟨hlo, hhi⟩
  · have hl := locationOf_pastBuf hlo hhi
    exact ⟨(step_read rfl hl hp).trans rfl, step_write rfl hl hp⟩
  · have hl := locationOf_pastOut hlo hhi
    exact ⟨(step_read rfl hl hp).trans rfl, step_write rfl hl hp⟩

/-! ### The bits of STATUS and of CTRL -/

theorem statusWord_busy (s : State) : (statusWord s).getLsbD 0 = s.busy := by
  simp [statusWord]

theorem statusWord_done (s : State) : (statusWord s).getLsbD 1 = s.done := by
  simp [statusWord]

theorem statusWord_err (s : State) : (statusWord s).extractLsb' 2 3 = s.err := by
  apply BitVec.eq_of_getLsbD_eq
  intro i hi
  simp [statusWord, hi, show 2 + i < 32 by omega, show 1 < 2 + i by omega]

theorem statusWord_reserved (s : State) : (statusWord s).extractLsb' 5 27 = 0#27 := by
  apply BitVec.eq_of_getLsbD_eq
  intro i hi
  simp [statusWord, hi]
  intro _ _ _
  exact BitVec.getLsbD_of_ge _ _ (by omega)

theorem ctrl_reserved (op : BitVec 2) : (op.setWidth 32 : Word).extractLsb' 2 30 = 0#30 := by
  apply BitVec.eq_of_getLsbD_eq
  intro i hi
  simp [hi]

/-- A CTRL value and its bits [1:0] alone have the same OP field. -/
theorem opField_and_three (v : Word) : opField (v &&& 0x00000003#32) = opField v := by
  rw [and_three_eq, opField_setWidth]

/-! ### The statements -/

/-- Settles O32: the memory is the old one with one byte written, and the read finds that byte. -/
theorem bufferByteIsWrittenAndReadBack : Obligations.BufferByteIsWrittenAndReadBack := by
  intro s i v rest hidle hi
  exact ⟨s.buf.write i (v.extractLsb' 0 8), step_write_bufByte hi hidle rfl, Memory.read_write_same _ _ _,
    fun k hk => Memory.read_write_ne _ _ hk,
    run_two (step_write_bufByte hi hidle rfl) (step_read_bufByte hi (Memory.read_write_same _ _ _) rfl)⟩

/-- Settles O30: each write as a step, and then the read of the same register. -/
theorem operandRegistersReadBackAsWritten : Obligations.OperandRegistersReadBackAsWritten := by
  intro s v rest hidle
  refine ⟨step_write_ctrl hidle rfl, step_write_offset hidle rfl, step_write_width hidle rfl, ?_,
    run_two (step_write_offset hidle rfl) (step_read_offset rfl),
    run_two (step_write_width hidle rfl) (step_read_width rfl)⟩
  rw [and_three_eq]
  exact run_two (step_write_ctrl hidle rfl) (step_read_ctrl rfl)

/-- Settles O31, by the two outcomes of the test against BUF_CAP. -/
theorem bufLenTakesOnlyLegalValues : Obligations.BufLenTakesOnlyLegalValues := by
  intro s v rest hidle h
  rw [step_write_bufLen hidle h, setBufLen, uint32]
  exact ⟨fun hle => by rw [if_pos hle], fun hlt => by rw [if_neg (Nat.not_le.2 hlt)]⟩

/-- Settles O35: the reply is the STATUS word, whose bits are said above. -/
theorem statusReadsItsFlags : Obligations.StatusReadsItsFlags := fun s _ h =>
  ⟨statusWord s, step_read_status h, statusWord_busy s, statusWord_done s, statusWord_err s, statusWord_reserved s⟩

/-- Settles O36, one read rule per location. -/
theorem idleReadsReturnTheState : Obligations.IdleReadsReturnTheState := fun _ _ hidle =>
  ⟨step_read_bufLen rfl, step_read_start rfl, step_read_resultLo hidle rfl, step_read_resultHi hidle rfl,
    step_read_outLen hidle rfl, fun _ _ hi hbyte => step_read_bufByte hi hbyte rfl,
    fun _ _ hj hbyte => step_read_outByte hj hidle hbyte rfl⟩

/-- Settles O39: the reserved places by the register map, the reserved bits by the words of CTRL and STATUS. -/
theorem reservedSpaceReadsZero : Obligations.ReservedSpaceReadsZero := by
  intro s v rest
  refine ⟨fun _ => step_access_reserved s, fun _ => step_access_pastCapacity s,
    ⟨_, ctrl_reserved s.op, step_read_ctrl rfl⟩, ⟨_, statusWord_reserved s, step_read_status rfl⟩, fun hidle => ?_,
    step_write rfl locationOf_status rfl⟩
  have hwrite (w : Word) : step { s with pending := .access (.write .word 0x00000 w) :: rest } =
      .next { s with pending := rest, op := opField w } := step_write_ctrl hidle rfl
  rw [hwrite, hwrite, opField_and_three]

/-- An address is BFX's exactly when its offset is below 0x30000, wherever the base is (10_state.md R15). -/
theorem offsetOfAddress_accessAddress (a : Access) :
    offsetOfAddress (accessAddress a) = if accessOff a < 0x30000 then some (accessOff a) else none := by
  simp [offsetOfAddress, accessAddress]

/-- Settles O41: the base cancels. -/
theorem addressesAreRelativeToTheBase : Obligations.AddressesAreRelativeToTheBase := by
  intro a
  rw [offsetOfAddress_accessAddress]
  exact ⟨by simp, fun h => if_neg (by omega)⟩

end Sys2Proof.Machine
end

section
/-! What a command's completion depends on (20_memory.md R49) and what it leaves alone (R41). -/

namespace Sys2Proof.Machine

variable {s t s' : State}

@[simp] theorem ofCode_code (operation : Operation) : Operation.ofCode operation.code = some operation := by
  cases operation <;> rfl

/-- The command in the registers, where OP is an operation's code. -/
theorem completeCommand_of_code {operation : Operation} (h : s.op = operation.code) :
    completeCommand s = exec (operation.instr s.offset s.width s.bufLen) s := by
  simp [completeCommand, decode, commandWords, h]

/-- The command in the registers, where OP is the reserved code (30_encoding.md R54). -/
theorem completeCommand_of_reserved (h : s.op = 3#2) : completeCommand s = .next (errorCompletion .invalidOp s) :=
  completeCommand_error s (by rw [check_eq, if_pos h])

/-! ### The bit loops read only bytes below L -/

section

variable {b₁ b₂ : Memory} {o w n : Nat} (h : ∀ k < n, b₁.read k = b₂.read k) (hfits : o + w ≤ 8 * n)

include h hfits

theorem acc_congr : acc b₁ o w = acc b₂ o w :=
  accLoop_congr fun _ _ => readBit_congr h (by omega)

theorem extu_congr : extu b₁ o w = extu b₂ o w := by
  rw [extu, extu, acc_congr h hfits]

theorem exts_congr (hw : 1 ≤ w) : exts b₁ o w = exts b₂ o w := by
  rw [exts, exts, acc_congr h hfits, readBit_congr h (by omega)]

theorem extb_congr : extb b₁ o w = extb b₂ o w :=
  extbLoop_congr fun _ _ => readBit_congr h (by omega)

end

/-! ### Equal inputs give equal outcomes -/

/-- `s'` and `t'`, reached by a command with the code `op`, hold the same outcome: equal ERR, and on success equal results of
the command's own kind. -/
structure SameOutcome (op : BitVec 2) (s' t' : State) : Prop where
  err : t'.err = s'.err
  result : s'.err = 0#3 → op = 0#2 ∨ op = 1#2 → t'.result = s'.result
  out : s'.err = 0#3 → op = 2#2 → t'.outLen = s'.outLen ∧ t'.out = s'.out

/-- Of an error's outcome only ERR is asked. -/
theorem sameOutcome_errorCompletion (op : BitVec 2) (e : ErrKind) (s t : State) :
    SameOutcome op (errorCompletion e s) (errorCompletion e t) where
  err := rfl
  result h := absurd h (errCode_ne_zero e)
  out h := absurd h (errCode_ne_zero e)

/-- A completion whose effect takes a value from the buffer and puts it into the state: where the value is the same, so is
the outcome. The operands that pass the checks have a field inside the buffer. -/
theorem complete_sameOutcome {α : Type} {op : BitVec 2} {offset width len : Word} {value : Memory → Nat → Nat → Option α}
    {put : α → State → State}
    (hvalue : ∀ o w, 1 ≤ w → o + w ≤ 8 * len.toNat → value s.buf o w = value t.buf o w)
    (hput : ∀ a, SameOutcome op (succeed (put a s)) (succeed (put a t)))
    (hs : complete op offset width len (fun o w u => (value u.buf o w).map fun a => put a u) s = .next s') :
    ∃ t', complete op offset width len (fun o w u => (value u.buf o w).map fun a => put a u) t = .next t' ∧
      SameOutcome op s' t' := by
  rcases complete_cases (op := op) (offset := offset) (width := width) (len := len)
      (effect := fun o w u => (value u.buf o w).map fun a => put a u) s with
    ⟨e, hc, he⟩ | ⟨-, -, he⟩ | ⟨u, hc, hu, he⟩ <;> rw [he] at hs <;> cases hs
  · exact ⟨_, complete_error t hc, sameOutcome_errorCompletion op e s t⟩
  · obtain ⟨a, ha, rfl⟩ := Option.map_eq_some_iff.1 hu
    obtain ⟨-, ho, hw, -, hfits⟩ := check_eq_none_iff.1 hc
    rw [hvalue _ _ (by omega) (by omega)] at ha
    exact ⟨_, by rw [complete_ok t hc, ha]; rfl, hput a⟩

/-- A command's outcome depends only on its fields and the buffer bytes below LEN. -/
theorem exec_sameOutcome {operation : Operation} {offset width len : Word}
    (hbytes : ∀ k < len.toNat, s.buf.read k = t.buf.read k)
    (hs : exec (operation.instr offset width len) s = .next s') :
    ∃ t', exec (operation.instr offset width len) t = .next t' ∧ SameOutcome operation.code s' t' := by
  cases operation with
  | extu =>
    exact complete_sameOutcome (fun _ _ _ => extu_congr hbytes)
      (fun _ => ⟨rfl, fun _ _ => rfl, fun _ h => absurd h (by decide)⟩) hs
  | exts =>
    exact complete_sameOutcome (fun _ _ hw hfits => exts_congr hbytes hfits hw)
      (fun _ => ⟨rfl, fun _ _ => rfl, fun _ h => absurd h (by decide)⟩) hs
  | extb =>
    exact complete_sameOutcome (fun _ _ _ => extb_congr hbytes)
      (fun _ => ⟨rfl, fun _ h => absurd h (by decide), fun _ _ => ⟨rfl, rfl⟩⟩) hs

/-- The same of the command in the registers, the reserved opcode's included. -/
theorem completeCommand_sameOutcome (hop : s.op = t.op) (hoffset : s.offset = t.offset) (hwidth : s.width = t.width)
    (hlen : s.bufLen = t.bufLen) (hbytes : ∀ k < s.bufLen.toNat, s.buf.read k = t.buf.read k)
    (hs : completeCommand s = .next s') : ∃ t', completeCommand t = .next t' ∧ SameOutcome s.op s' t' := by
  by_cases hres : s.op = 3#2
  · rw [completeCommand_of_reserved hres] at hs
    cases hs
    exact ⟨_, completeCommand_of_reserved (hop ▸ hres), sameOutcome_errorCompletion s.op _ s t⟩
  · obtain ⟨operation, hcode, hexec⟩ := completeCommand_eq_exec s hres
    rw [completeCommand_of_code (hop ▸ hcode), ← hoffset, ← hwidth, ← hlen, hcode]
    exact exec_sameOutcome hbytes (hexec ▸ hs)

/-- Settles O26: the two completions reach the same outcome. -/
theorem commandsArePure : Obligations.CommandsArePure := by
  intro s t s' hop hoffset hwidth hlen hbytes hs
  obtain ⟨t', ht, hsame⟩ := completeCommand_sameOutcome hop hoffset hwidth hlen hbytes hs
  refine ⟨t', ht, hsame.err, hsame.result, fun hok hextb => ?_⟩
  obtain ⟨houtLen, hout⟩ := hsame.out hok hextb
  exact ⟨houtLen, fun j _ => by rw [hout]⟩

/-! ### The inputs stay -/

/-- Every next state of the command in the registers: an error completion, a new RESULT or a new OUT. -/
theorem completeCommand_next (ht : completeCommand s = .next t) :
    (∃ e, t = errorCompletion e s) ∨ (∃ r, t = succeed (setResult r s)) ∨ ∃ bytes, t = succeed (setOut bytes s) := by
  by_cases hres : s.op = 3#2
  · rw [completeCommand_of_reserved hres] at ht
    cases ht
    exact .inl ⟨_, rfl⟩
  · obtain ⟨operation, -, hexec⟩ := completeCommand_eq_exec s hres
    rcases exec_next (hexec ▸ ht) with he | ⟨-, hr⟩ | ⟨bytes, -, hb⟩
    · exact .inl he
    · exact .inr (.inl hr)
    · exact .inr (.inr ⟨bytes, hb⟩)

/-- Settles O49: no completion has an input among what it writes, and an idle turn writes nothing. -/
theorem extractorNeverWritesInputs : Obligations.ExtractorNeverWritesInputs := by
  intro s t hext ht
  rw [step_extractor hext] at ht
  split at ht
  · rcases completeCommand_next ht with ⟨e, rfl⟩ | ⟨r, rfl⟩ | ⟨bytes, rfl⟩
    · exact ⟨rfl, rfl, rfl, rfl, rfl⟩
    · exact ⟨rfl, rfl, rfl, rfl, rfl⟩
    · exact ⟨rfl, rfl, rfl, rfl, rfl⟩
  · cases ht
    exact ⟨rfl, rfl, rfl, rfl, rfl⟩

/-! ### The bit-position primitive -/

theorem locate_mul_add (i : Nat) {b : Nat} (hb : b < 8) : locate (8 * i + b) = (i, b) := by
  rw [locate, Nat.mul_add_div (by decide), Nat.div_eq_of_lt hb, Nat.mul_add_mod, Nat.mod_eq_of_lt hb, Nat.add_zero]

/-- `read_bit` of a written byte: shift first, mask second (20_memory.md R38). -/
theorem readBit_mul_add {buf : Memory} {i b : Nat} {byte : Byte} (hb : b < 8) (hbyte : buf.read i = some byte) :
    readBit buf (8 * i + b) = some ((byte.toNat >>> (7 - b)) &&& 1) := by
  simp [readBit, memRead, locate_mul_add i hb, hbyte]

/-- The stream bit `b` of byte `i` is its register-order bit `7 - b` (R37). -/
theorem bitIs_mul_add {buf : Memory} {i b : Nat} {byte : Byte} (hb : b < 8) (hbyte : buf.read i = some byte) :
    BitIs buf (8 * i + b) (byte.getLsbD (7 - b)) := by
  obtain ⟨hdiv, hmod⟩ := Prod.mk.inj (locate_mul_add i hb)
  exact ⟨byte, by rw [hdiv, hbyte], by rw [hmod]⟩

/-- Settles O27: the stream bit, and the shift and mask that give it. -/
theorem readBitIsTheStreamBit : Obligations.ReadBitIsTheStreamBit := fun _ _ _ _ hb hbyte =>
  ⟨readBit_of_bitIs (bitIs_mul_add hb hbyte), readBit_mul_add hb hbyte⟩

end Sys2Proof.Machine
end

section
/-! Effects of host accesses (20_memory.md R43, R44): what a read can change, which writes have no effect, which accesses are
no moves, and which one starts a command. -/

namespace Sys2Proof.Machine

variable {s t : State} {v : Word} {rest : List Event}

/-! ### Reads -/

/-- An idle read replies with a value that rests on the location and on BFX's state, not on the host's side of the port, and
draws none. -/
theorem hostRead_idle (l : Location) (hidle : s.busy = false) :
    ∃ r, ∀ ps rs, hostRead l { s with pending := ps, replies := rs } = { s with pending := ps, replies := r :: rs } := by
  have hresult (v : Word) (ps : List Event) (rs : List Reply) :
      readResultWord v { s with pending := ps, replies := rs } = { s with pending := ps, replies := .word v :: rs } :=
    readResultWord_idle (s := { s with pending := ps, replies := rs }) hidle v
  cases l
  case ctrl => exact ⟨.word (s.op.setWidth 32), fun _ _ => rfl⟩
  case offset => exact ⟨.word s.offset, fun _ _ => rfl⟩
  case width => exact ⟨.word s.width, fun _ _ => rfl⟩
  case bufLen => exact ⟨.word s.bufLen, fun _ _ => rfl⟩
  case status => exact ⟨.word (statusWord s), fun _ _ => rfl⟩
  case resultLo => exact ⟨_, hresult (s.result.extractLsb' 0 32)⟩
  case resultHi => exact ⟨_, hresult (s.result.extractLsb' 32 32)⟩
  case outLen => exact ⟨_, hresult s.outLen⟩
  case buf i => exact ⟨.byte (bufByte s i), fun _ _ => rfl⟩
  case out j => exact ⟨.byte (outByte s j), fun _ _ => by simp [hostRead, hidle, replyByte, outByte]⟩
  all_goals exact ⟨_, fun _ _ => rfl⟩

/-- A run of two steps is one step and then another. -/
theorem step_of_run_two (h : Host.Core.run core 2 s = .next t) : ∃ u, step s = .next u ∧ step u = .next t := by
  cases hs : step s with
  | next u =>
    rw [run_succ hs] at h
    cases hu : step u with
    | next u' => rw [run_succ hu] at h; cases h; exact ⟨u, rfl, hu⟩
    | fault f => rw [run_fault hu] at h; cases h
    | refused r => simp only [Host.Core.run, core, hu] at h; cases h
  | fault f => rw [run_fault hs] at h; cases h
  | refused r => simp only [Host.Core.run, core, hs] at h; cases h

/-- Settles O38: a read replies and draws, and both reads of the same place while idle find the same reply. -/
theorem readsHaveNoSideEffect : Obligations.ReadsHaveNoSideEffect := by
  refine ⟨fun s t size off rest hp ht => ?_, fun s t size off rest hidle hp hrun => ?_⟩
  · obtain ⟨l, -, -, rfl⟩ := step_read_inv hp ht
    obtain ⟨r, k, hread⟩ := hostRead_cases l { s with pending := rest }
    rw [hread]
  · obtain ⟨u, hu, ht⟩ := step_of_run_two hrun
    obtain ⟨l, hl, hperm, rfl⟩ := step_read_inv hp hu
    obtain ⟨r, hr⟩ := hostRead_idle l hidle
    rw [hr, step_read rfl hl hperm, hr] at ht
    cases ht
    exact ⟨r, rfl⟩

/-! ### Writes without effect -/

/-- A write that is to no input and to no START has no effect. -/
theorem step_write_noEffect {size : AccessSize} {off : Nat} {l : Location}
    (h : s.pending = .access (.write size off v) :: rest) (hl : locationOf off = some l)
    (hperm : accessPermitted size off = true) (hinput : isInput l = false) (hstart : l ≠ .start) :
    step s = .next { s with pending := rest } := by
  rw [step_write h hl hperm]
  rcases hostWrite_other v { s with pending := rest } hinput with ⟨-, hl', -⟩ | ⟨-, hw⟩
  · exact absurd hl' hstart
  · exact hw

/-- The registers that are read-only or reserved are no inputs and not START. -/
theorem locationOf_readOnlyWord {off : Nat}
    (hoff : off = 0x00010 ∨ off = 0x00018 ∨ off = 0x0001C ∨ off = 0x00020 ∨ (0x00024 ≤ off ∧ off < 0x10000 ∧ off % 4 = 0)) :
    ∃ l, locationOf off = some l ∧ isInput l = false ∧ l ≠ .start := by
  rcases hoff with rfl | rfl | rfl | rfl | ⟨hlo, hhi, -⟩
  · exact ⟨_, locationOf_status, rfl, by decide⟩
  · exact ⟨_, locationOf_resultLo, rfl, by decide⟩
  · exact ⟨_, locationOf_resultHi, rfl, by decide⟩
  · exact ⟨_, locationOf_outLen, rfl, by decide⟩
  · exact ⟨_, locationOf_reserved hlo hhi, rfl, by decide⟩

/-- The OUT window, within OUT_CAP or past it, and the BUF window past BUF_CAP are no inputs and not START. -/
theorem locationOf_readOnlyByte {off : Nat}
    (hoff : (0x20000 ≤ off ∧ off < 0x30000) ∨ (0x10000 + Config.bufCap ≤ off ∧ off < 0x20000)) :
    ∃ l, locationOf off = some l ∧ isInput l = false ∧ l ≠ .start := by
  rcases hoff with ⟨hlo, hhi⟩ | ⟨hlo, hhi⟩
  · obtain ⟨j, rfl⟩ := Nat.exists_eq_add_of_le hlo
    rcases Nat.lt_or_ge j Config.outCap with hj | hj
    · exact ⟨_, locationOf_outByte hj, rfl, nofun⟩
    · exact ⟨_, locationOf_pastOut (by omega) hhi, rfl, by decide⟩
  · exact ⟨_, locationOf_pastBuf hlo hhi, rfl, by decide⟩

/-- Settles O33: the register map puts no input and no START at these offsets. -/
theorem readOnlyLocationsIgnoreWrites : Obligations.ReadOnlyLocationsIgnoreWrites := by
  refine fun s v rest off => ⟨fun hoff h => ?_, fun hoff h => ?_⟩
  · obtain ⟨l, hl, hinput, hstart⟩ := locationOf_readOnlyWord hoff
    exact step_write_noEffect h hl (accessPermitted_word (by omega) (by omega)) hinput hstart
  · obtain ⟨l, hl, hinput, hstart⟩ := locationOf_readOnlyByte hoff
    exact step_write_noEffect h hl (accessPermitted_byte (by omega)) hinput hstart

/-! ### Accesses that are no moves -/

theorem accessPermitted_eq_false_iff {size : AccessSize} {off : Nat} :
    accessPermitted size off = false ↔
      (off < 0x10000 ∧ (size ≠ .word ∨ off % 4 ≠ 0)) ∨ (0x10000 ≤ off ∧ size ≠ .byte) := by
  rcases Nat.lt_or_ge off 0x10000 with hlt | hge
  · simp [accessPermitted, hlt, Nat.not_le.2 hlt, imp_iff_not_or]
  · simp [accessPermitted, hge, Nat.not_lt.2 hge]

/-- Below the windows only 32-bit accesses are permitted. -/
theorem eq_word_of_accessPermitted {size : AccessSize} {off : Nat} (hlt : off < 0x10000)
    (h : accessPermitted size off = true) : size = .word := by
  by_contra hsize
  rw [accessPermitted_eq_false_iff.2 (.inl ⟨hlt, .inl hsize⟩)] at h
  cases h

/-- A permitted write is never refused for its form. -/
theorem hostWrite_ne_accessForm (l : Location) (v : Word) (s : State) : hostWrite l v s ≠ .refused .accessForm := by
  have hinput (u : State) : writeInput s u ≠ .refused .accessForm := by
    unfold writeInput
    split <;> simp
  cases l
  case ctrl => exact hinput _
  case offset => exact hinput _
  case width => exact hinput _
  case bufLen => exact hinput _
  case buf i => exact hinput _
  all_goals exact nofun

/-- An access is refused for its form exactly where it is BFX's and its form is not permitted (20_memory.md R43). -/
theorem hostTurn_eq_accessForm_iff (a : Access) (s : State) :
    hostTurn a s = .refused .accessForm ↔
      accessOff a < 0x30000 ∧ accessPermitted (accessSize a) (accessOff a) = false := by
  rcases hostTurn_cases a s with
    ⟨hoff, ha⟩ | ⟨l, hl, hperm, ha⟩ | ⟨l, hl, hperm, ⟨size, off, -, ha⟩ | ⟨size, off, v, -, ha⟩⟩ <;> rw [ha]
  · simp [Nat.not_lt.2 hoff]
  · simp [hperm, locationOf_lt hl]
  · simp [hperm]
  · simp [hperm, hostWrite_ne_accessForm]

theorem hostTurn_outsideBfx {a : Access} (hoff : 0x30000 ≤ accessOff a) (s : State) :
    hostTurn a s = .fault .outsideBfx := by
  rcases hostTurn_cases a s with ⟨-, ha⟩ | ⟨l, hl, -⟩ | ⟨l, hl, -⟩
  · exact ha
  · exact absurd (locationOf_lt hl) (Nat.not_lt.2 hoff)
  · exact absurd (locationOf_lt hl) (Nat.not_lt.2 hoff)

/-- Settles O40, from the exact condition for the refusal. -/
theorem otherAccessFormsAreNoMoves : Obligations.OtherAccessFormsAreNoMoves := by
  intro s a rest h
  rw [step_access h, hostTurn_eq_accessForm_iff, accessPermitted_eq_false_iff]
  refine ⟨fun hlt hform => ⟨by omega, .inl ⟨hlt, hform⟩⟩, fun hge hlt hsize => ⟨hlt, .inr ⟨hge, hsize⟩⟩,
    fun hoff => hostTurn_outsideBfx hoff _, ?_⟩
  rintro ⟨hlt, hform | ⟨hge, hsize⟩⟩
  · exact .inl hform
  · exact .inr ⟨hge, hlt, hsize⟩

/-! ### The access that starts a command -/

/-- START stands at one offset. -/
theorem eq_of_locationOf_start {off : Nat} (h : locationOf off = some .start) : off = 0x00014 := by
  unfold locationOf at h
  split_ifs at h <;> cases h
  assumption

/-- A write changes BUSY only as an accepted START. -/
theorem hostWrite_next_busy {l : Location} (ht : hostWrite l v s = .next t) :
    t.busy = s.busy ∨ (s.busy = false ∧ l = .start ∧ v.getLsbD 0 = true) := by
  cases hin : isInput l with
  | false =>
    rcases hostWrite_other v s hin with ⟨hidle, hl, hv, -⟩ | ⟨-, hw⟩
    · exact .inr ⟨hidle, hl, hv⟩
    · rw [hw] at ht; cases ht; exact .inl rfl
  | true =>
    cases hb : s.busy with
    | true => rw [hostWrite_busy v hin hb] at ht; cases ht
    | false =>
      rcases hostWrite_input v hin hb with
        ⟨-, hw⟩ | ⟨-, hw⟩ | ⟨-, hw⟩ | ⟨-, -, hw⟩ | ⟨-, -, hw⟩ | ⟨_, -, hw⟩ <;>
        rw [hw] at ht <;> cases ht <;> exact .inl hb

/-- A host access changes BUSY only as a 32-bit write to START with bit 0 = 1 while idle. -/
theorem hostTurn_next_busy {a : Access} (ht : hostTurn a s = .next t) :
    t.busy = s.busy ∨ (s.busy = false ∧ ∃ v, a = .write .word 0x00014 v ∧ v.getLsbD 0 = true) := by
  rcases hostTurn_cases a s with
    ⟨-, ha⟩ | ⟨l, -, -, ha⟩ | ⟨l, hl, hperm, ⟨size, off, -, ha⟩ | ⟨size, off, v, rfl, ha⟩⟩ <;> rw [ha] at ht
  · cases ht
  · cases ht
  · cases ht
    obtain ⟨r, k, hread⟩ := hostRead_cases l s
    exact .inl (by rw [hread])
  · rcases hostWrite_next_busy ht with hsame | ⟨hidle, rfl, hv⟩
    · exact .inl hsame
    · obtain rfl := eq_of_locationOf_start hl
      obtain rfl : size = .word := eq_word_of_accessPermitted (off := 0x00014) (by decide) hperm
      exact .inr ⟨hidle, v, rfl, hv⟩

/-- Settles O50, by the event the step takes: the extractor never starts, the reset leaves BFX idle, and of the host's
accesses only an accepted START changes BUSY. -/
theorem onlyStartBeginsACommand : Obligations.OnlyStartBeginsACommand := by
  intro s t ht
  rcases event_cases s with he | ⟨a, rest, he⟩ | ⟨rest, he⟩
  · refine ⟨fun hidle hbusy => ?_, fun _ _ => .inl he⟩
    rw [step_extractor he, hidle] at ht
    cases ht
    simp [hidle] at hbusy
  · rw [step_access he] at ht
    rcases hostTurn_next_busy ht with hsame | ⟨hidle, v, rfl, hv⟩
    · rw [popEvent_busy] at hsame
      exact ⟨fun hidle hbusy => by simp [hsame, hidle] at hbusy, fun hbusy hidle => by simp [hsame, hbusy] at hidle⟩
    · rw [popEvent_busy] at hidle
      exact ⟨fun _ _ => ⟨v, rest, he, hv⟩, fun hbusy => by simp [hidle] at hbusy⟩
  · rw [step_reset he] at ht
    cases ht
    exact ⟨fun _ hbusy => by simp at hbusy, fun _ _ => .inr ⟨rest, he⟩⟩

end Sys2Proof.Machine
end

section
/-! The encoding (30_encoding.md R51 to R55): which OP field each row of the opcode map has, and the 128-bit image of a
command. -/

namespace Sys2Proof

open Machine

/-! ### The OP field selects the row -/

theorem Operation.ofCode_eq_some_iff {op : BitVec 2} {operation : Operation} :
    Operation.ofCode op = some operation ↔ op = operation.code := by
  revert op
  cases operation <;> decide

theorem Operation.ofCode_eq_none_iff {op : BitVec 2} : Operation.ofCode op = none ↔ op = 3#2 := by
  revert op
  decide

/-- The operands are the same in every row, so the row is in the constructor. -/
theorem Operation.instr_left_inj {a b : Operation} {offset width len : Word} :
    a.instr offset width len = b.instr offset width len ↔ a = b := by
  cases a <;> cases b <;> simp [Operation.instr]

/-- A row is decoded exactly where OP is its code (R52). -/
theorem decode_eq_ok_iff {c : CmdWords} {operation : Operation} :
    decode c = .ok (operation.instr c.offset c.width c.len) ↔ opField c.ctrl = operation.code := by
  rw [← Operation.ofCode_eq_some_iff, decode]
  cases Operation.ofCode (opField c.ctrl) <;> simp [Operation.instr_left_inj]

/-- The reserved opcode is the only one the decoder refuses (R54). -/
theorem decode_eq_error_iff {c : CmdWords} : decode c = .error .reservedOp ↔ opField c.ctrl = 3#2 := by
  rw [← Operation.ofCode_eq_none_iff, decode]
  cases Operation.ofCode (opField c.ctrl) <;> simp

/-- The opcode table's mask leaves the OP field (R52). -/
theorem and_three_eq_setWidth_iff {x : Word} {op : BitVec 2} : x &&& 0x00000003#32 = op.setWidth 32 ↔ opField x = op := by
  rw [and_three_eq]
  exact ⟨fun h => by rw [← opField_setWidth (opField x), h, opField_setWidth], fun h => by rw [h]⟩

/-- Settles O2: decoding and masking both come down to the OP field. -/
theorem decodeFollowsMatchAndMask : Obligations.DecodeFollowsMatchAndMask := by
  have hrow (operation : Operation) (c : CmdWords) : decode c = .ok (operation.instr c.offset c.width c.len) ↔
      c.ctrl &&& 0x00000003#32 = operation.code.setWidth 32 := decode_eq_ok_iff.trans and_three_eq_setWidth_iff.symm
  exact fun c => ⟨hrow .extu c, hrow .exts c, hrow .extb c,
    decode_eq_error_iff.trans (and_three_eq_setWidth_iff (op := 3#2)).symm⟩

/-! ### The image of a command in 128 bits (log 12) -/

theorem CmdWords.toNat_lt (c : CmdWords) : c.toNat < 2 ^ 128 := by
  have := c.ctrl.isLt
  have := c.offset.isLt
  have := c.width.isLt
  have := c.len.isLt
  rw [CmdWords.toNat]
  omega

/-- Each word is cut out of the image again: those below it are less than its place, those above are multiples of 2^32. -/
theorem CmdWords.ofNat_toNat (c : CmdWords) : CmdWords.ofNat c.toNat = c := by
  obtain ⟨ctrl, offset, width, len⟩ := c
  have := ctrl.isLt
  have := offset.isLt
  have := width.isLt
  have := len.isLt
  simp only [CmdWords.ofNat, CmdWords.toNat, CmdWords.mk.injEq]
  refine ⟨?_, ?_, ?_, ?_⟩ <;> apply BitVec.eq_of_toNat_eq <;> rw [BitVec.toNat_ofNat] <;> omega

theorem decode_encode (i : Instr) : decode (encode i) = .ok i := by
  cases i with
  | extu offset width len => exact (Laws.MatchMask.extu offset width len).2
  | exts offset width len => exact (Laws.MatchMask.exts offset width len).2
  | extb offset width len => exact (Laws.MatchMask.extb offset width len).2

/-- Bits above the image's 128 are 0, so a longer reading finds the same four words. -/
theorem decodeTableWord_toNat (c : CmdWords) {nbits : Nat} (h : 128 ≤ nbits) :
    decodeTableWord nbits c.toNat = (decode c).toOption := by
  have hlt : c.toNat < 2 ^ nbits := c.toNat_lt.trans_le (Nat.pow_le_pow_right (by decide) h)
  rw [decodeTableWord, Nat.mod_eq_of_lt hlt, CmdWords.ofNat_toNat]

/-- Settles O1: the image determines the four words, and the four words the command. -/
theorem decodeOfEncodedCommand : Obligations.DecodeOfEncodedCommand := fun i =>
  ⟨decode_encode i, fun nbits h => by rw [decodeTableWord_toNat _ h, decode_encode]; rfl⟩

/-- Settles O4, by evaluating the decoder on the words written out. -/
theorem writtenOutWordsDecode : Obligations.WrittenOutWordsDecode := by
  unfold Obligations.WrittenOutWordsDecode
  decide

/-! ### The ignored bits -/

/-- A host write to CTRL is seen through its OP field only (R55), idle or busy. -/
theorem hostWrite_ctrl_congr {v v' : Word} (h : opField v = opField v') (s : State) :
    hostWrite .ctrl v s = hostWrite .ctrl v' s := by
  rw [hostWrite, hostWrite, h]

/-- A host write to START is seen through its bit 0 only (R55). -/
theorem hostWrite_start_congr {v v' : Word} (h : v.getLsbD 0 = v'.getLsbD 0) (s : State) :
    hostWrite .start v s = hostWrite .start v' s := by
  rw [hostWrite, hostWrite, startWrite, startWrite, h]

theorem decode_congr {c c' : CmdWords} (hop : opField c.ctrl = opField c'.ctrl) (hoffset : c.offset = c'.offset)
    (hwidth : c.width = c'.width) (hlen : c.len = c'.len) : decode c = decode c' := by
  rw [decode, decode, hop, hoffset, hwidth, hlen]

/-- The decode is total: a row, or the reserved opcode. -/
theorem decode_total (c : CmdWords) : (∃ i, decode c = .ok i) ∨ decode c = .error .reservedOp := by
  cases h : decode c with
  | ok i => exact .inl ⟨i, rfl⟩
  | error e => cases e; exact .inr rfl

/-- Settles O3: decoding and both writes read the OP field or bit 0 only, and CTRL reads back as OP with zeros above. -/
theorem ignoredBitsNeverChangeTheCommand : Obligations.IgnoredBitsNeverChangeTheCommand := by
  refine ⟨fun _ _ => decode_congr, fun s v v' rest h => ?_, fun s rest h => ⟨_, ctrl_reserved s.op, step_read_ctrl h⟩,
    fun s v v' rest h => ?_, decode_total⟩
  · rw [step_write rfl locationOf_ctrl rfl, step_write rfl locationOf_ctrl rfl]
    exact hostWrite_ctrl_congr h _
  · rw [step_write rfl locationOf_start rfl, step_write rfl locationOf_start rfl]
    exact hostWrite_start_congr h _

end Sys2Proof
end

section
/-! Literals (30_encoding.md R57). -/

namespace Sys2Proof.Machine

theorem isWellFormed_dec_iff {v : Int} : (Literal.dec v).isWellFormed = true ↔ -2 ^ 31 ≤ v ∧ v ≤ 2 ^ 31 - 1 := by
  simp [Literal.isWellFormed]

theorem isWellFormed_hex_iff {ds : List (Fin 16)} :
    (Literal.hex ds).isWellFormed = true ↔ 1 ≤ ds.length ∧ ds.length ≤ 8 := by
  simp [Literal.isWellFormed]

/-- A hex literal of `n` digits is below `16 ^ n`, its last digit the least significant. -/
theorem hexValue_lt (ds : List (Fin 16)) : ds.foldl (fun n d => 16 * n + d.val) 0 < 16 ^ ds.length := by
  induction ds using List.reverseRecOn with
  | nil => simp
  | append_singleton ds d ih =>
    rw [List.foldl_append, List.length_append, List.length_singleton, pow_succ, List.foldl_cons, List.foldl_nil]
    have := d.isLt
    omega

/-- A refused literal stands for nothing. -/
theorem literalValue_eq_none {l : Literal} (h : ¬ l.isWellFormed = true) : literalValue l = none := if_neg h

/-- Settles O53: within the range the 32-bit pattern loses nothing of the value, outside it the literal is not well formed. -/
theorem literalsAreRangeChecked : Obligations.LiteralsAreRangeChecked := by
  refine ⟨fun v hlo hhi => ⟨_, if_pos (isWellFormed_dec_iff.2 ⟨hlo, hhi⟩), ?_⟩,
    fun v hout => literalValue_eq_none fun h => ?_,
    fun ds hpos hlen => ⟨_, if_pos (isWellFormed_hex_iff.2 ⟨hpos, hlen⟩), ?_⟩,
    fun ds hlen => literalValue_eq_none fun h => ?_⟩
  · exact BitVec.toInt_ofInt_eq_self (by decide) hlo (by omega)
  · have := isWellFormed_dec_iff.1 h
    omega
  · have hlt : ds.foldl (fun n d => 16 * n + d.val) 0 < 2 ^ 32 :=
      (hexValue_lt ds).trans_le (Nat.pow_le_pow_right (n := 16) (by decide) hlen)
    rw [BitVec.toNat_ofNat, Nat.mod_eq_of_lt hlt]
  · have := isWellFormed_hex_iff.1 h
    omega

end Sys2Proof.Machine
end

section
/-! Runs of the host statements (30_encoding.md R54, R59): writes that load and start, reads that only reply. -/

namespace Sys2Proof.Machine

variable {s t : State} {v : Word} {rest : List Event}

/-- A run that goes on from the next state. -/
theorem run_of_step {n : Nat} {o : Host.Outcome State Fault Refusal} (h : step s = .next t)
    (hrun : Host.Core.run core n t = o) : Host.Core.run core (n + 1) s = o := (run_succ h n).trans hrun

/-! ### Commands started by writes -/

/-- START with bit 0 = 1 while idle (40_command_cycle.md R61). -/
theorem step_write_start (hidle : s.busy = false) (hv : v.getLsbD 0 = true)
    (h : s.pending = .access (.write .word 0x00014 v) :: rest) :
    step s = .next { s with pending := rest, busy := true, done := false, err := 0#3 } := by
  rw [step_write h locationOf_start rfl]
  simp [hostWrite, startWrite, hv, hidle, onStart]

/-- Settles O54, one write after the other. -/
theorem commandExpansionStartsTheCommand : Obligations.CommandExpansionStartsTheCommand := by
  intro s operation o w rest hidle
  refine run_of_step (step_write_offset hidle rfl) (run_of_step (step_write_width hidle rfl)
    (run_two (step_write_ctrl hidle rfl) ?_))
  rw [opField_setWidth]
  exact step_write_start hidle rfl rfl

/-- Settles O7: after the two writes the extractor finds the reserved opcode; and decode refuses no other. -/
theorem reservedOpcodeCompletesInvalidOp : Obligations.ReservedOpcodeCompletesInvalidOp := by
  refine ⟨fun s v rest hidle (hop : opField v = 3#2) => ?_, fun c => decode_eq_error_iff⟩
  refine run_of_step (step_write_ctrl hidle rfl) (run_two (step_write_start hidle rfl rfl) ?_)
  rw [hop, step_extractor rfl]
  exact (if_pos rfl).trans (completeCommand_of_reserved rfl)

/-! ### LOADBUF -/

/-- An 8-bit write carries its byte in the low bits of the value (10_state.md R28). -/
theorem extractLsb'_setWidth_byte (b : Byte) : (b.setWidth 32 : Word).extractLsb' 0 8 = b := by
  rw [← BitVec.setWidth_eq_extractLsb' (by decide), BitVec.setWidth_setWidth_of_le _ (by decide), BitVec.setWidth_eq]

/-- The byte writes of LOADBUF write the bytes one after the other. -/
theorem run_loadBytes (bytes : List Byte) : ∀ {s : State} (i : Nat), s.busy = false → i + bytes.length ≤ Config.bufCap →
    Host.Core.run core bytes.length { s with pending := loadBytes i bytes ++ rest } =
      .next { s with buf := s.buf.writeFrom i bytes, pending := rest } := by
  induction bytes with
  | nil => intro s i _ _; rfl
  | cons b bs ih =>
    intro s i hidle hcap
    rw [List.length_cons] at hcap
    refine run_of_step (step_write_bufByte (i := i) (by omega) hidle rfl) ?_
    rw [extractLsb'_setWidth_byte]
    exact ih (s := { s with buf := s.buf.write i b }) (i + 1) hidle (by omega)

/-- Settles O55: the buffer is the old one with the bytes written from 0 on, and their count is a legal BUF_LEN. -/
theorem loadbufExpansionLoadsTheBuffer : Obligations.LoadbufExpansionLoadsTheBuffer := by
  intro s bytes rest hidle hcap
  have hlen : (BitVec.ofNat 32 bytes.length).toNat ≤ Config.bufCap := by
    rw [BitVec.toNat_ofNat]
    exact (Nat.mod_le _ _).trans hcap
  refine ⟨s.buf.writeFrom 0 bytes, ?_, fun k hk => ?_, fun k hk => ?_⟩
  · rw [loadEvents, List.append_assoc, run_add _ _ (run_loadBytes bytes 0 hidle (by omega))]
    refine run_of_step ((bufLenTakesOnlyLegalValues _ _ _ ?_ rfl).1 hlen) rfl
    exact hidle
  · simp [Memory.read_writeFrom, hk]
  · simp [Memory.read_writeFrom, List.getElem?_eq_none hk]

/-! ### Reads that only reply -/

/-- The event `e` is an access that replies `r` and changes nothing, whatever stands on the host's side of the port. -/
def OnlyReplies (s : State) (e : Event) (r : Reply) : Prop :=
  ∀ ps rs, step { s with pending := e :: ps, replies := rs } = .next { s with pending := ps, replies := r :: rs }

/-- A run of such accesses collects their replies. -/
theorem run_onlyReplies {es : List Event} {rs : List Reply} (h : List.Forall₂ (OnlyReplies s) es rs) :
    ∀ rs₀, Host.Core.run core rs.length { s with pending := es ++ rest, replies := rs₀ } =
      .next { s with pending := rest, replies := rs.reverse ++ rs₀ } := by
  induction h with
  | nil => intro rs₀; rfl
  | cons hstep _ ih =>
    intro rs₀
    rw [List.reverse_cons, List.append_assoc]
    exact run_of_step (hstep _ _) (ih _)

/-- Settles O57: the two halves of RESULT. -/
theorem getresReadsTheResult : Obligations.GetresReadsTheResult := by
  intro s rest hidle
  refine ⟨_, _, run_two (step_read_resultLo hidle rfl) (step_read_resultHi hidle rfl), ?_⟩
  have := s.result.isLt
  simp only [getresValue, uint32, BitVec.extractLsb'_toNat, Nat.shiftRight_eq_div_pow]
  omega

/-- The reads of the OUT bytes reply with the bytes an EXTB left there. -/
theorem onlyReplies_outReads {outs : List Byte} (hidle : s.busy = false) (hout : HoldsBytes s.out outs)
    (hcap : outs.length ≤ Config.outCap) :
    List.Forall₂ (OnlyReplies s) (outReads outs.length) (outs.map .byte) := by
  rw [List.forall₂_iff_get]
  refine ⟨by simp [outReads], fun j hj hj' _ _ => ?_⟩
  simp only [outReads, List.length_map, List.length_range] at hj
  simp only [outReads, List.get_eq_getElem, List.getElem_map, List.getElem_range]
  exact step_read_outByte (hj.trans_le hcap) hidle (hout j hj) rfl

/-- Settles O58: OUT_LEN, and then one reply per OUT byte. -/
theorem getoutReadsTheOutput : Obligations.GetoutReadsTheOutput := by
  intro s outs rest hidle hout _ hcap
  have hrun := run_onlyReplies (rest := rest) (onlyReplies_outReads hidle hout hcap) (.word s.outLen :: s.replies)
  rw [List.length_map] at hrun
  exact run_of_step (step_read_outLen hidle rfl) hrun

/-! ### POLL -/

/-- The completion ends with BUSY = 0 and DONE = 1 and leaves the host's side of the port (40_command_cycle.md R67). -/
theorem completeCommand_finished (ht : completeCommand s = .next t) :
    t.busy = false ∧ t.done = true ∧ t.pending = s.pending ∧ t.replies = s.replies := by
  rcases completeCommand_next ht with ⟨e, rfl⟩ | ⟨r, rfl⟩ | ⟨bytes, rfl⟩
  · exact ⟨rfl, rfl, rfl, rfl⟩
  · exact ⟨rfl, rfl, rfl, rfl⟩
  · exact ⟨rfl, rfl, rfl, rfl⟩

/-- The STATUS reads of a POLL before the completion. -/
theorem run_busyPolls (s : State) (busyPolls : Nat) :
    Host.Core.run core busyPolls
        { s with pending := List.replicate busyPolls (.access (.read .word 0x00010)) ++ rest } =
      .next { s with pending := rest, replies := List.replicate busyPolls (.word (statusWord s)) ++ s.replies } := by
  have hreads : List.Forall₂ (OnlyReplies s) (List.replicate busyPolls (.access (.read .word 0x00010)))
      (List.replicate busyPolls (.word (statusWord s))) := by
    induction busyPolls with
    | zero => exact .nil
    | succ n ih => exact .cons (fun _ _ => step_read_status rfl) ih
  have hrun := run_onlyReplies (rest := rest) hreads s.replies
  rw [List.length_replicate, List.reverse_replicate] at hrun
  exact hrun

/-- Settles O56: the reads before the completion leave the command in flight, and its outcome does not rest on the host's side
of the port. -/
theorem pollEndsWithDone : Obligations.PollEndsWithDone := by
  intro s u busyPolls rest hbusy hu
  let busyReads : List Reply := List.replicate busyPolls (.word (statusWord s))
  obtain ⟨t, ht, hsame⟩ := completeCommand_sameOutcome (s := s)
    (t := { s with pending := .access (.read .word 0x00010) :: rest, replies := busyReads ++ s.replies })
    rfl rfl rfl rfl (fun _ _ => rfl) hu
  obtain ⟨hidle, hdone, hpending, hreplies⟩ := completeCommand_finished ht
  have hextractor : step { s with
      pending := .extractor :: .access (.read .word 0x00010) :: rest, replies := busyReads ++ s.replies } = .next t := by
    rw [step_extractor rfl, if_pos hbusy]
    exact ht
  refine ⟨{ t with pending := rest, replies := .word (statusWord t) :: t.replies }, busyReads, statusWord t, ?_, rfl,
    by rw [hreplies]; rfl, List.length_replicate, fun r hr => ?_, ?_, ?_, ?_⟩
  · rw [pollEvents, List.append_assoc, run_add _ _ (run_busyPolls s busyPolls)]
    exact run_two hextractor (step_read_status hpending)
  · exact ⟨_, List.eq_of_mem_replicate hr, (statusWord_busy s).trans hbusy⟩
  · exact (statusWord_busy t).trans hidle
  · exact (statusWord_done t).trans hdone
  · exact (statusWord_err t).trans hsame.err

end Sys2Proof.Machine
end

section
/-! The command cycle (40_command_cycle.md): START, the step that runs a command, what a completion leaves unchanged, and
the command in flight under the host's accesses. -/

namespace Sys2Proof.Machine

variable {s t u : State} {v : Word} {rest : List Event}

/-! ### START -/

/-- Settles O28: the rule of an accepted START. -/
theorem acceptedStartSetsBusy : Obligations.AcceptedStartSetsBusy :=
  fun _ _ _ h hv hidle => step_write_start hidle hv h

/-- Settles O29: START is no input, so a write there that is not accepted does nothing. -/
theorem startIsIgnoredWhileBusy : Obligations.StartIsIgnoredWhileBusy := by
  intro s v rest h hignored
  rw [step_write h locationOf_start rfl]
  rcases hostWrite_other v { s with pending := rest } (l := .start) rfl with ⟨hidle, -, hv, -⟩ | ⟨-, hw⟩
  · rcases hignored with hbusy | hv'
    · exact absurd (hbusy.symm.trans hidle) (by decide)
    · exact absurd (hv.symm.trans hv') (by decide)
  · exact hw

/-! ### The step that runs a command -/

theorem completeCommand_of_decode {i : Instr} (h : decode (commandWords s) = .ok i) : completeCommand s = exec i s := by
  rw [completeCommand, h]

/-- The extractor's step while a command is in flight (R63, R64). -/
theorem step_runs_decoded {i : Instr} (hbusy : s.busy = true) (hext : extractorIsNext s = true)
    (h : decode (commandWords s) = .ok i) : step s = exec i (popEvent s) := by
  rw [step_extractor hext, if_pos hbusy]
  exact completeCommand_of_decode h

/-- Settles O5, by the two cases of the extractor's turn. -/
theorem stepRunsDecodedCommand : Obligations.StepRunsDecodedCommand :=
  ⟨fun _ _ => step_runs_decoded, fun s hidle hext => by rw [step_extractor hext, hidle, if_neg (by decide)]⟩

/-- The 128-bit image places the command's own four words. -/
theorem withFetchWord_toNat (s : State) (c : CmdWords) : s.withFetchWord 128 c.toNat = placeCommand c s := by
  rw [State.withFetchWord, Nat.mod_eq_of_lt c.toNat_lt, CmdWords.ofNat_toNat]

/-- The registers of a placed command decode to what its words decode to: CTRL reads back as its OP field (10_state.md R16). -/
theorem decode_commandWords_placeCommand (c : CmdWords) (s : State) :
    decode (commandWords (placeCommand c s)) = decode c :=
  decode_congr (opField_setWidth _) rfl rfl rfl

/-- Settles O6: the placed command is in flight with no event left, so the extractor moves and finds it in the registers. -/
theorem placedCommandRunsNext : Obligations.PlacedCommandRunsNext := by
  intro s i
  refine ⟨popEvent (placeCommand (encode i) s), ?_, rfl, rfl, rfl, rfl, rfl, rfl, rfl, rfl, rfl, rfl, rfl⟩
  rw [withFetchWord_toNat]
  exact step_runs_decoded rfl rfl ((decode_commandWords_placeCommand _ s).trans (decode_encode i))

/-! ### The next states of each kind of command -/

/-- A command other than EXTB: an error completion or a new RESULT. -/
theorem exec_next_of_ne_extb {i : Instr} (hi : ∀ offset width len, i ≠ .extb offset width len) (ht : exec i s = .next t) :
    (∃ e, t = errorCompletion e s) ∨ ∃ r, t = succeed (setResult r s) := by
  rcases exec_cases i s with ⟨e, he⟩ | he | ⟨r, -, he⟩ | ⟨_, _, _, ⟨offset, width, len, hextb, -⟩, -⟩
  · rw [he] at ht; cases ht; exact .inl ⟨e, rfl⟩
  · rw [he] at ht; cases ht
  · rw [he] at ht; cases ht; exact .inr ⟨r, rfl⟩
  · exact absurd hextb (hi offset width len)

/-- EXTU and EXTS: an error completion or a new RESULT. -/
theorem exec_integer_next {offset width len : Word}
    (ht : exec (.extu offset width len) s = .next t ∨ exec (.exts offset width len) s = .next t) :
    (∃ e, t = errorCompletion e s) ∨ ∃ r, t = succeed (setResult r s) :=
  ht.elim (exec_next_of_ne_extb (by simp)) (exec_next_of_ne_extb (by simp))

/-- EXTB: an error completion or a new OUT, no longer than the buffer. -/
theorem exec_extb_next {offset width len : Word} (ht : exec (.extb offset width len) s = .next t) :
    (∃ e, t = errorCompletion e s) ∨ ∃ bytes, bytes.length ≤ len.toNat ∧ t = succeed (setOut bytes s) := by
  rcases exec_next ht with he | ⟨⟨_, _, _, hi⟩, -⟩ | hb
  · exact .inl he
  · simp at hi
  · exact .inr hb

/-- A command that reports an error has ended with an error completion (60_exceptions.md R85). -/
theorem exec_next_error {i : Instr} (ht : exec i s = .next t) (herr : t.err ≠ 0#3) : ∃ e, t = errorCompletion e s := by
  rcases exec_next ht with he | ⟨-, r, rfl⟩ | ⟨bytes, -, rfl⟩
  · exact he
  · exact absurd (succeed_err _) herr
  · exact absurd (succeed_err _) herr

/-- No completion writes BUF (20_memory.md R41). -/
theorem exec_next_buf {i : Instr} (ht : exec i s = .next t) : t.buf = s.buf := by
  rcases exec_next ht with ⟨e, rfl⟩ | ⟨-, r, rfl⟩ | ⟨bytes, -, rfl⟩
  · rfl
  · rfl
  · rfl

/-- OUT_LEN counts the staged bytes, which 32 bits hold. -/
theorem setOut_outLen_toNat {bytes : List Byte} {len : Word} (h : bytes.length ≤ len.toNat) (s : State) :
    (setOut bytes s).outLen.toNat = bytes.length := by
  rw [setOut_outLen, BitVec.toNat_ofNat, Nat.mod_eq_of_lt (h.trans_lt len.isLt)]

/-- Settles O13: of the next states each kind of command has, the fields beside those it writes are the old ones. -/
theorem commandFrame : Obligations.CommandFrame := by
  refine ⟨fun s t _ _ _ ht => ?_, fun s t _ _ _ ht => ?_, fun s t _ ht k => by rw [exec_next_buf ht]⟩
  · rcases exec_integer_next ht with ⟨e, rfl⟩ | ⟨r, rfl⟩
    · rfl
    · rfl
  · rcases exec_extb_next ht with ⟨e, rfl⟩ | ⟨bytes, -, rfl⟩
    · rfl
    · rfl

/-- Settles O14: neither an error completion nor a new RESULT touches OUT, a new OUT leaves RESULT, and OUT is listed only
below OUT_LEN. -/
theorem outputsOfOtherKindsStay : Obligations.OutputsOfOtherKindsStay := by
  refine fun s t _ _ _ => ⟨fun ht => ?_, fun ht => ?_, fun ht hok j hj => ?_, fun i ht herr => ?_⟩
  · rcases exec_integer_next ht with ⟨e, rfl⟩ | ⟨r, rfl⟩
    · exact ⟨rfl, fun _ => rfl⟩
    · exact ⟨rfl, fun _ => rfl⟩
  · rcases exec_extb_next ht with ⟨e, rfl⟩ | ⟨bytes, -, rfl⟩
    · rfl
    · rfl
  · rcases exec_extb_next ht with ⟨e, rfl⟩ | ⟨bytes, hlen, rfl⟩
    · exact absurd hok (errCode_ne_zero e)
    · rw [succeed_outLen, setOut_outLen_toNat hlen] at hj
      rw [succeed_out, setOut_out, Memory.read_writeFrom_nil, List.getElem?_eq_none hj]
  · obtain ⟨e, rfl⟩ := exec_next_error ht herr
    exact ⟨rfl, rfl, fun _ => rfl⟩

/-! ### The command in flight under the host's accesses -/

/-- `t` holds the same of BFX as `s`: they differ only on the host's side of the port and in the draws made. -/
def SameBfx (s t : State) : Prop :=
  ∃ draws outDraw pending replies,
    t = { s with draws := draws, outDraw := outDraw, pending := pending, replies := replies }

theorem SameBfx.refl (s : State) : SameBfx s s := ⟨_, _, _, _, rfl⟩

theorem SameBfx.trans (hst : SameBfx s t) (htu : SameBfx t u) : SameBfx s u := by
  obtain ⟨_, _, _, _, rfl⟩ := hst
  obtain ⟨_, _, _, _, rfl⟩ := htu
  exact ⟨_, _, _, _, rfl⟩

theorem sameBfx_popEvent (s : State) : SameBfx s (popEvent s) := ⟨_, _, _, _, rfl⟩

theorem SameBfx.setResult (h : SameBfx s t) (r : DWord) : SameBfx (setResult r s) (setResult r t) := by
  obtain ⟨_, _, _, _, rfl⟩ := h
  exact ⟨_, _, _, _, rfl⟩

theorem SameBfx.setOut (h : SameBfx s t) (bytes : List Byte) : SameBfx (setOut bytes s) (setOut bytes t) := by
  obtain ⟨_, _, _, _, rfl⟩ := h
  exact ⟨_, _, _, _, rfl⟩

theorem SameBfx.succeed (h : SameBfx s t) : SameBfx (succeed s) (succeed t) := by
  obtain ⟨_, _, _, _, rfl⟩ := h
  exact ⟨_, _, _, _, rfl⟩

theorem SameBfx.errorCompletion (h : SameBfx s t) (e : ErrKind) : SameBfx (errorCompletion e s) (errorCompletion e t) := by
  obtain ⟨_, _, _, _, rfl⟩ := h
  exact ⟨_, _, _, _, rfl⟩

theorem SameBfx.buf_eq (h : SameBfx s t) : t.buf = s.buf := by
  obtain ⟨_, _, _, _, rfl⟩ := h
  rfl

theorem SameBfx.busy_eq (h : SameBfx s t) : t.busy = s.busy := by
  obtain ⟨_, _, _, _, rfl⟩ := h
  rfl

/-- Two completions end alike: both in next states that hold the same of BFX, or both on an unwritten byte. -/
inductive SameEnd : Host.Outcome State Fault Refusal → Host.Outcome State Fault Refusal → Prop where
  | next {s t : State} (h : SameBfx s t) : SameEnd (.next s) (.next t)
  | fault : SameEnd (.fault .unwrittenBufferByte) (.fault .unwrittenBufferByte)

/-- A completion whose effect takes a value from the buffer and puts it into the state ends alike from states that hold the
same of BFX. -/
theorem SameBfx.complete {α : Type} {op : BitVec 2} {offset width len : Word} {value : Memory → Nat → Nat → Option α}
    {put : α → State → State} (h : SameBfx s t) (hput : ∀ a, SameBfx (put a s) (put a t)) :
    SameEnd (complete op offset width len (fun o w u => (value u.buf o w).map fun a => put a u) s)
      (complete op offset width len (fun o w u => (value u.buf o w).map fun a => put a u) t) := by
  cases hc : check op offset.toInt width.toInt len.toNat with
  | some e =>
    rw [complete_error s hc, complete_error t hc]
    exact .next (h.errorCompletion e)
  | none =>
    rw [complete_ok s hc, complete_ok t hc, h.buf_eq]
    cases value s.buf offset.toInt.toNat width.toInt.toNat with
    | none => exact .fault
    | some a => exact .next (hput a).succeed

theorem SameBfx.exec (h : SameBfx s t) (i : Instr) : SameEnd (exec i s) (exec i t) := by
  cases i with
  | extu offset width len => exact h.complete (value := extu) h.setResult
  | exts offset width len => exact h.complete (value := exts) h.setResult
  | extb offset width len => exact h.complete (value := extb) h.setOut

/-- The completion of the command in the registers rests on nothing beside BFX's own state (R64). -/
theorem SameBfx.completeCommand (h : SameBfx s t) : SameEnd (completeCommand s) (completeCommand t) := by
  have hwords : commandWords t = commandWords s := by
    obtain ⟨_, _, _, _, rfl⟩ := h
    rfl
  rcases decode_total (commandWords s) with ⟨i, hi⟩ | hres
  · rw [completeCommand_of_decode hi, completeCommand_of_decode (hwords ▸ hi)]
    exact h.exec i
  · have hop := (opField_setWidth s.op).symm.trans (decode_eq_error_iff.1 hres)
    have hop' := (opField_setWidth t.op).symm.trans (decode_eq_error_iff.1 (hwords ▸ hres))
    rw [completeCommand_of_reserved hop, completeCommand_of_reserved hop']
    exact .next (h.errorCompletion _)

/-- An access that keeps the host's duties is inside BFX, of a permitted form, and while busy no write to an input. -/
theorem dutyKept_iff {busy : Bool} {a : Access} : dutyKept busy a = true ↔
    ∃ l, locationOf (accessOff a) = some l ∧ accessPermitted (accessSize a) (accessOff a) = true ∧
      ∀ size off v, a = .write size off v → busy = true → isInput l = false := by
  cases hl : locationOf (accessOff a) with
  | none => simp [dutyKept, hl]
  | some l =>
    cases a with
    | read size off => simp [dutyKept, hl]
    | write size off v => cases busy <;> simp [dutyKept, hl]

/-- While busy an access that keeps the host's duties has a next state, the same of BFX (70_reset_and_hazards.md R97, R98). -/
theorem hostTurn_of_dutyKept {a : Access} (hbusy : s.busy = true) (ha : dutyKept true a = true) :
    ∃ t, hostTurn a s = .next t ∧ t.pending = s.pending ∧ SameBfx s t := by
  obtain ⟨l, hl, hperm, hinput⟩ := dutyKept_iff.1 ha
  rcases hostTurn_cases a s with
    ⟨hoff, -⟩ | ⟨l', -, hperm', -⟩ | ⟨l', hl', -, ⟨size, off, -, ht⟩ | ⟨size, off, v, hwrite, ht⟩⟩
  · exact absurd (locationOf_lt hl) (Nat.not_lt.2 hoff)
  · exact absurd (hperm.symm.trans hperm') (by decide)
  · obtain ⟨r, k, hread⟩ := hostRead_cases l' s
    exact ⟨_, ht, by rw [hread], _, _, _, _, hread⟩
  · obtain rfl : l' = l := Option.some.inj (hl'.symm.trans hl)
    rcases hostWrite_other v s (hinput size off v hwrite rfl) with ⟨hidle, -⟩ | ⟨-, hw⟩
    · exact absurd (hbusy.symm.trans hidle) (by decide)
    · exact ⟨s, ht.trans hw, rfl, .refl s⟩

theorem run_one (s : State) : Host.Core.run core 1 s = step s := by
  cases h : step s <;> simp only [Host.Core.run, core, h]

/-- The extractor's step ends as the completion would from any state that holds the same of BFX. -/
theorem SameBfx.step_extractor (h : SameBfx s t) (hbusy : s.busy = true) (hext : extractorIsNext t = true) :
    SameEnd (Machine.completeCommand s) (step t) := by
  rw [Machine.step_extractor hext, if_pos (h.busy_eq.trans hbusy)]
  exact (h.trans (sameBfx_popEvent t)).completeCommand

/-- Whatever harmless events are still to come, within one more step than there are events the run ends as the completion of
the command in flight does now. The induction keeps the starting state `s` and moves `t`, which holds the same of BFX. -/
theorem run_completes (hbusy : s.busy = true) (ps : List Event) : ∀ t, t.pending = ps → SameBfx s t →
    (∀ e ∈ ps, harmless e = true) → ∃ n, n ≤ ps.length + 1 ∧ SameEnd (completeCommand s) (Host.Core.run core n t) := by
  induction ps with
  | nil =>
    intro t hp h _
    exact ⟨1, le_refl 1, run_one t ▸ h.step_extractor hbusy (by simp [extractorIsNext, hp])⟩
  | cons e ps ih =>
    intro t hp h hall
    obtain ⟨he, hps⟩ := List.forall_mem_cons.1 hall
    cases e with
    | extractor => exact ⟨1, by simp, run_one t ▸ h.step_extractor hbusy (by simp [extractorIsNext, hp])⟩
    | reset => cases he
    | access a =>
      obtain ⟨t', hturn, hpending, hsame⟩ := hostTurn_of_dutyKept (s := popEvent t) (h.busy_eq.trans hbusy) he
      obtain ⟨n, hn, hend⟩ := ih t' (by rw [hpending, popEvent_pending, hp, List.tail_cons])
        (h.trans ((sameBfx_popEvent t).trans hsame)) hps
      exact ⟨n + 1, Nat.succ_le_succ hn, run_succ ((step_access hp).trans hturn) n ▸ hend⟩

/-- Settles O46: the run ends as the completion does now, in a next state or on an unwritten byte. -/
theorem commandInFlightCompletes : Obligations.CommandInFlightCompletes := by
  intro s hbusy hall
  obtain ⟨n, hn, hend⟩ := run_completes hbusy s.pending s rfl (.refl s) hall
  refine ⟨n, hn, ?_⟩
  generalize hc : completeCommand s = now at hend
  generalize hr : Host.Core.run core n s = later at hend
  cases hend with
  | fault => exact .inr ⟨rfl, rfl⟩
  | next h =>
    obtain ⟨hidle, hdone, -, -⟩ := completeCommand_finished hc
    obtain ⟨_, _, _, _, rfl⟩ := h
    exact .inl ⟨_, _, rfl, rfl, hidle, hdone, rfl, rfl, rfl, rfl⟩

end Sys2Proof.Machine
end

section
/-! Integer extraction, EXTU and EXTS (41_integer_extract.md): the errors of their operands, what each stores of a
field, and the field as a slice of the buffer. -/

namespace Sys2Proof.Machine

variable {s t : State} {offset width len : Word} {buf : Memory} {bs : List Byte} {o w u : Nat}

/-! ### The error completions of a command -/

theorem code_ne_reserved (operation : Operation) : operation.code ≠ 3#2 := by
  cases operation <;> decide

theorem exec_offsetError (operation : Operation) (s : State) (ho : offset.toInt < 0) :
    exec (operation.instr offset width len) s = .next (errorCompletion .invalidOffset s) := by
  apply exec_error
  rw [check_eq, if_neg (code_ne_reserved operation), if_pos ho]

/-- The integer extractions have a width limit, W_INT, beside the lower one (60_exceptions.md R81). -/
theorem exec_widthError {operation : Operation} (s : State) (ho : 0 ≤ offset.toInt)
    (hw : width.toInt ≤ 0 ∨ ((operation.code = 0#2 ∨ operation.code = 1#2) ∧ 64 < width.toInt)) :
    exec (operation.instr offset width len) s = .next (errorCompletion .invalidWidth s) := by
  apply exec_error
  rw [check_eq, if_neg (code_ne_reserved operation), if_neg (by omega)]
  by_cases hw0 : width.toInt ≤ 0
  · rw [if_pos hw0]
  · rw [if_neg hw0, if_pos (hw.resolve_left hw0)]

theorem exec_rangeError {operation : Operation} (s : State) (ho : 0 ≤ offset.toInt) (hw : 1 ≤ width.toInt)
    (hcap : operation.code = 0#2 ∨ operation.code = 1#2 → width.toInt ≤ 64)
    (hrange : 8 * (len.toNat : Int) < offset.toInt + width.toInt) :
    exec (operation.instr offset width len) s = .next (errorCompletion .outOfRange s) := by
  apply exec_error
  rw [check_eq, if_neg (code_ne_reserved operation), if_neg (by omega), if_neg (by omega),
    if_neg fun ⟨hop, hwide⟩ => absurd (hcap hop) (by omega), if_pos hrange]

/-! ### The accumulated pattern -/

theorem acc_lt (h : acc buf o w = some u) : u < 2 ^ w := by
  refine Nat.lt_pow_two_of_testBit u fun k hk => ?_
  rw [Bool.eq_false_iff, ne_eq, accLoop_testBit h (le_refl w)]
  omega

/-- Field bit `i` is bit `w - 1 - i` of the pattern (R69). -/
theorem readBit_of_acc_of_lt (h : acc buf o w = some u) {i : Nat} (hi : i < w) :
    readBit buf (o + i) = some (u.testBit (w - 1 - i)).toNat := by
  have hw : 1 ≤ w := by omega
  have hwritten : FieldWritten buf o w := by
    by_contra hf
    rw [(acc_eq_none_iff hw).2 hf] at h; cases h
  obtain ⟨v, hv, -, hbits⟩ := acc_spec hwritten hw
  obtain rfl : u = v := Option.some.inj (h.symm.trans hv)
  exact readBit_of_bitIs (hbits i hi)

/-- A number's bits below `w` add up, each at its place, to the number mod `2^w`. -/
theorem sum_testBit_eq_mod (u w : Nat) : ∑ i ∈ Finset.range w, (u.testBit i).toNat * 2 ^ i = u % 2 ^ w := by
  induction w with
  | zero => simp [Nat.mod_one]
  | succ w ih => rw [Finset.sum_range_succ, ih, Nat.toNat_testBit, pow_succ, Nat.mod_mul, mul_comm]

/-- The accumulator is the sum of the field's bits by place (R69). -/
theorem acc_eq_sum (h : acc buf o w = some u) :
    u = ∑ i ∈ Finset.range w, (readBit buf (o + i)).getD 0 * 2 ^ (w - 1 - i) := by
  calc u = u % 2 ^ w := (Nat.mod_eq_of_lt (acc_lt h)).symm
    _ = ∑ i ∈ Finset.range w, (u.testBit i).toNat * 2 ^ i := (sum_testBit_eq_mod u w).symm
    _ = ∑ i ∈ Finset.range w, (u.testBit (w - 1 - i)).toNat * 2 ^ (w - 1 - i) :=
      (Finset.sum_range_reflect _ w).symm
    _ = _ := Finset.sum_congr rfl fun i hi => by
      rw [readBit_of_acc_of_lt h (Finset.mem_range.1 hi), Option.getD_some]

/-! ### The field as a slice -/

/-- BUF holds the bytes `bs` from index `base` on. -/
def HoldsBytesFrom (buf : Memory) (base : Nat) (bs : List Byte) : Prop :=
  ∀ k, (h : k < bs.length) → buf.read (base + k) = some bs[k]

theorem holdsBytesFrom_zero : HoldsBytesFrom buf 0 bs ↔ HoldsBytes buf bs := by
  simp only [HoldsBytesFrom, HoldsBytes, Nat.zero_add]

theorem HoldsBytesFrom.bitIs {base p : Nat} (h : HoldsBytesFrom buf base bs) (hp : p < 8 * bs.length) :
    BitIs buf (8 * base + p) ((bigEndian bs).testBit (8 * bs.length - 1 - p)) := by
  rw [bigEndian_testBit bs p hp, show 8 * base + p = 8 * (base + p / 8) + p % 8 by omega]
  exact bitIs_mul_add (Nat.mod_lt _ (by decide)) (h _ _)

/-- The field of `w` bits at bit `p` of bytes that BUF holds is the slice of them as one big-endian integer (R69). -/
theorem HoldsBytesFrom.acc_eq {base p : Nat} (h : HoldsBytesFrom buf base bs) (hw : 1 ≤ w)
    (hfits : p + w ≤ 8 * bs.length) :
    acc buf (8 * base + p) w = some (bigEndian bs / 2 ^ (8 * bs.length - p - w) % 2 ^ w) := by
  refine acc_eq_of_bits hw (Nat.mod_lt _ (Nat.two_pow_pos w)) fun i hi => ?_
  have hbit := h.bitIs (p := p + i) (by omega)
  rw [Nat.testBit_mod_two_pow, decide_eq_true (show w - 1 - i < w by omega), Bool.true_and, Nat.testBit_div_two_pow,
    show w - 1 - i + (8 * bs.length - p - w) = 8 * bs.length - 1 - (p + i) by omega, Nat.add_assoc]
  exact hbit

theorem HoldsBytes.acc_eq (h : HoldsBytes buf bs) (hw : 1 ≤ w) (hfits : o + w ≤ 8 * bs.length) :
    acc buf o w = some (bigEndian bs / 2 ^ (8 * bs.length - o - w) % 2 ^ w) := by
  have hslice := (holdsBytesFrom_zero.2 h).acc_eq hw hfits
  rwa [Nat.mul_zero, Nat.zero_add] at hslice

/-- Settles O16: the accumulator's value on the slice, with its range and its sum by place. -/
theorem accumulatorIsTheBigEndianSlice : Obligations.AccumulatorIsTheBigEndianSlice := by
  intro buf bs o w hbytes hw hfits
  have hacc := hbytes.acc_eq hw hfits
  exact ⟨_, hacc, Nat.le_sub_one_of_lt (acc_lt hacc), acc_eq_sum hacc, rfl⟩

/-! ### The signed value -/

theorem msb_ofNat_eq_testBit (hw : 1 ≤ w) (u : Nat) : (BitVec.ofNat w u).msb = u.testBit (w - 1) := by
  rw [BitVec.msb_eq_getLsbD_last, BitVec.getLsbD_ofNat, decide_eq_true (by omega), Bool.true_and]

/-- The value with the pattern's own top bit for its sign is the pattern read as two's complement (R71). -/
theorem signedValue_eq_toInt (hw : 1 ≤ w) (hu : u < 2 ^ w) :
    signedValue u (u.testBit (w - 1)).toNat w = (BitVec.ofNat w u).toInt := by
  rw [BitVec.toInt_eq_msb_cond, msb_ofNat_eq_testBit hw, BitVec.toNat_ofNat, Nat.mod_eq_of_lt hu]
  cases u.testBit (w - 1) <;> simp [signedValue]

/-- What EXTS stores is the sign extension (R72). -/
theorem ofInt_signedValue (hw : 1 ≤ w) (hu : u < 2 ^ w) :
    BitVec.ofInt 64 (signedValue u (u.testBit (w - 1)).toNat w) = (BitVec.ofNat w u).signExtend 64 := by
  rw [signedValue_eq_toInt hw hu, BitVec.signExtend]

/-- Settles O22, by the pattern's top bit. -/
theorem signedFormsAgree : Obligations.SignedFormsAgree := by
  intro w u hw _ hu
  have hsext := ofInt_signedValue hw hu
  refine ⟨fun htop => ?_, fun htop => ?_⟩
  · rw [htop] at hsext
    exact ⟨by rw [signedValue, if_pos rfl]; ring, hsext⟩
  · rw [htop] at hsext
    exact hsext

/-! ### The completions on valid operands -/

/-- EXTU where the field's pattern is known (R70). -/
theorem exec_extu_of_acc (h : IntOperands offset width len o w) (hacc : acc s.buf o w = some u) :
    exec (.extu offset width len) s =
      .next { s with result := BitVec.ofNat 64 u, err := 0#3, busy := false, done := true } := by
  rw [exec, execExtu_valid s h, hacc]
  rfl

/-- EXTS where the field's pattern is known (R71, R72). -/
theorem exec_exts_of_acc (h : IntOperands offset width len o w) (hacc : acc s.buf o w = some u) :
    exec (.exts offset width len) s =
      .next { s with result := (BitVec.ofNat w u).signExtend 64, err := 0#3, busy := false, done := true } := by
  rw [exec, execExts_valid s h, hacc, ← ofInt_signedValue h.pos (acc_lt hacc)]
  rfl

/-- An integer extraction that completes has read its whole field. -/
theorem exists_acc_of_exec_next (h : IntOperands offset width len o w)
    (ht : exec (.extu offset width len) s = .next t ∨ exec (.exts offset width len) s = .next t) :
    ∃ u, acc s.buf o w = some u := by
  rw [exec, exec, execExtu_valid s h, execExts_valid s h] at ht
  cases hacc : acc s.buf o w with
  | none => simp [hacc] at ht
  | some u => exact ⟨u, rfl⟩

/-- Settles O9: the accumulator's bits are RESULT's. -/
theorem extuCompletesWithTheFieldBits : Obligations.ExtuCompletesWithTheFieldBits := by
  refine fun s offset width len => ⟨opField_setWidth _, fun o w h hwritten => ?_, exec_offsetError .extu s,
    fun ho hw => exec_widthError (operation := .extu) s ho (hw.imp_right fun hwide => ⟨.inl rfl, hwide⟩),
    fun ho hw hcap => exec_rangeError (operation := .extu) s ho hw fun _ => hcap⟩
  obtain ⟨u, hacc, hlt, hbits⟩ := acc_spec hwritten h.pos
  have hcap := h.capacity
  refine ⟨_, exec_extu_of_acc h hacc, fun i hi => ?_, fun k hk => ?_⟩
  · rw [BitVec.getLsbD_ofNat, decide_eq_true (by omega), Bool.true_and]
    exact hbits i hi
  · have hpow : u < 2 ^ k := hlt.trans_le (Nat.pow_le_pow_right (by decide) hk)
    rw [BitVec.getLsbD_ofNat, Nat.testBit_lt_two_pow hpow, Bool.and_false]

/-- Settles O10: the sign is the pattern's top bit, and a sign extension keeps the value. -/
theorem extsCompletesWithTheSignedField : Obligations.ExtsCompletesWithTheSignedField := by
  refine fun s offset width len => ⟨opField_setWidth _, fun o w h hwritten => ?_, exec_offsetError .exts s,
    fun ho hw => exec_widthError (operation := .exts) s ho (hw.imp_right fun hwide => ⟨.inr rfl, hwide⟩),
    fun ho hw hcap => exec_rangeError (operation := .exts) s ho hw fun _ => hcap⟩
  obtain ⟨u, hacc, hlt, hbits⟩ := acc_spec hwritten h.pos
  refine ⟨_, u, u.testBit (w - 1), exec_exts_of_acc h hacc, hlt, hbits, hbits 0 h.pos, ?_⟩
  rw [BitVec.toInt_signExtend_of_le h.capacity, ← signedValue_eq_toInt h.pos hlt]
  cases u.testBit (w - 1) <;> simp [signedValue]

/-- Settles O18: a `w`-bit pattern, read as unsigned or as two's complement, and 64 bits hold both. -/
theorem integerResultsLieInRange : Obligations.IntegerResultsLieInRange := by
  refine fun s t offset width len o w h => ⟨fun ht => ?_, fun ht => ?_⟩
  · obtain ⟨u, hacc⟩ := exists_acc_of_exec_next h (.inl ht)
    rw [exec_extu_of_acc h hacc] at ht
    cases ht
    exact (Nat.mod_le _ _).trans (Nat.le_sub_one_of_lt (acc_lt hacc))
  · obtain ⟨u, hacc⟩ := exists_acc_of_exec_next h (.inr ht)
    rw [exec_exts_of_acc h hacc] at ht
    cases ht
    rw [BitVec.toInt_signExtend_of_le h.capacity]
    exact ⟨BitVec.le_toInt _, Int.le_sub_one_of_lt BitVec.toInt_lt⟩

/-- The checks of the two integer extractions are the same (R71). -/
theorem check_exts_eq_check_extu (o w : Int) (len : Nat) : check 1#2 o w len = check 0#2 o w len := by
  simp [check_eq]

/-- Settles O19: the checks agree, and with a first bit of 0 the signed value is the pattern itself. -/
theorem extsEqualsExtuOnSignBitZero : Obligations.ExtsEqualsExtuOnSignBitZero := by
  intro s offset width len o ho hbit
  cases hcheck : check 0#2 offset.toInt width.toInt len.toNat with
  | some e =>
    exact (exec_error (operation := .exts) s ((check_exts_eq_check_extu _ _ _).trans hcheck)).trans
      (exec_error (operation := .extu) s hcheck).symm
  | none =>
    obtain ⟨o', w, h⟩ := intOperands_of_check (.inl rfl) hcheck
    obtain rfl : o' = o := Int.ofNat_inj.1 (h.offset_eq.symm.trans ho)
    rw [exec, exec, execExtu_valid s h, execExts_valid s h]
    cases hacc : acc s.buf o' w with
    | none => rfl
    | some u =>
      have hsign : (u.testBit (w - 1)).toNat = 0 :=
        Option.some.inj ((readBit_of_acc h.pos hacc).symm.trans (readBit_of_bitIs hbit))
      simp [hsign, signedValue]

/-- Settles O21: the packed value is the pattern that the accumulator finds. -/
theorem packedValueIsReadBack : Obligations.PackedValueIsReadBack := fun _ _ _ _ _ _ _ h hv hbits =>
  exec_extu_of_acc h (acc_eq_of_bits h.pos hv hbits)

/-! ### Across byte boundaries -/

theorem bigEndian_append_singleton (bs : List Byte) (b : Byte) :
    bigEndian (bs ++ [b]) = bigEndian bs * 2 ^ 8 + b.toNat := by
  induction bs with
  | nil => simp [bigEndian]
  | cons c bs ih =>
    rw [List.cons_append, bigEndian, ih, bigEndian, List.length_append, List.length_singleton]
    ring

/-- The low `k + a` bits of two numbers joined at bit `k`. -/
theorem mul_two_pow_add_mod {r k : Nat} (hr : r < 2 ^ k) (q a : Nat) :
    (q * 2 ^ k + r) % 2 ^ (k + a) = q % 2 ^ a * 2 ^ k + r := by
  have hmod : (q * 2 ^ k + r) % 2 ^ k = r := Nat.mul_add_mod_of_lt hr
  have hdiv : (q * 2 ^ k + r) / 2 ^ k = q := by
    rw [mul_comm, Nat.mul_add_div (Nat.two_pow_pos k), Nat.div_eq_of_lt hr, Nat.add_zero]
  rw [pow_add, Nat.mod_mul, hmod, hdiv, mul_comm, Nat.add_comm]

/-- Dropping the `7 - e` low bits of a last byte leaves its `e + 1` high bits joined to what stands before the byte. -/
theorem mul_add_div_two_pow (q last : Nat) {e : Nat} (he : e < 8) :
    (q * 2 ^ 8 + last) / 2 ^ (7 - e) = q * 2 ^ (e + 1) + last / 2 ^ (7 - e) := by
  have hsplit : q * 2 ^ 8 = 2 ^ (7 - e) * (q * 2 ^ (e + 1)) := by
    rw [mul_left_comm, ← pow_add, show 7 - e + (e + 1) = 8 by omega]
  rw [hsplit, Nat.mul_add_div (Nat.two_pow_pos _)]

/-- The slice of `a` bits of a first byte, the middle bytes and `e + 1` bits of a last byte is those parts joined. -/
theorem slice_across_bytes (first last : Byte) (middle : List Byte) (a : Nat) {e : Nat} (he : e < 8) :
    bigEndian (first :: (middle ++ [last])) / 2 ^ (7 - e) % 2 ^ (e + 1 + (8 * middle.length + a)) =
      (first.toNat % 2 ^ a * 2 ^ (8 * middle.length) + bigEndian middle) * 2 ^ (e + 1) +
        last.toNat / 2 ^ (7 - e) := by
  have hlast : last.toNat / 2 ^ (7 - e) < 2 ^ (e + 1) := by
    rw [Nat.div_lt_iff_lt_mul (Nat.two_pow_pos _), ← pow_add, show e + 1 + (7 - e) = 8 by omega]
    exact last.isLt
  rw [← List.cons_append, bigEndian_append_singleton, mul_add_div_two_pow _ _ he, mul_two_pow_add_mod hlast, bigEndian,
    mul_two_pow_add_mod (bigEndian_lt middle)]

/-- A first byte, the middle bytes and a last byte that BUF holds one after the other. -/
theorem holdsBytesFrom_cons_append {base : Nat} {first last : Byte} {middle : List Byte}
    (hfirst : buf.read base = some first)
    (hmiddle : ∀ k, (h : k < middle.length) → buf.read (base + 1 + k) = some middle[k])
    (hlast : buf.read (base + 1 + middle.length) = some last) :
    HoldsBytesFrom buf base (first :: (middle ++ [last])) := by
  intro k hk
  cases k with
  | zero => exact hfirst
  | succ k =>
    rw [List.getElem_cons_succ, show base + (k + 1) = base + 1 + k by omega]
    by_cases hkm : k < middle.length
    · rw [List.getElem_append_left hkm]
      exact hmiddle k hkm
    · obtain rfl : k = middle.length := by simp at hk; omega
      rw [List.getElem_concat_length rfl]
      exact hlast

/-- Settles O20: the bytes from the first to the last are a buffer of their own, of which the field is a slice. -/
theorem byteBoundariesAreCrossed : Obligations.ByteBoundariesAreCrossed := by
  intro s offset width len o w first last middle h hspan hfirst hmiddle hlast
  rw [hspan] at hlast
  have hpos := h.pos
  have hlen : (first :: (middle ++ [last])).length = middle.length + 2 := by simp
  have hacc := (holdsBytesFrom_cons_append hfirst hmiddle hlast).acc_eq (p := o % 8) hpos (by omega)
  rw [hlen, Nat.div_add_mod, show 8 * (middle.length + 2) - o % 8 - w = 7 - (o + w - 1) % 8 by omega] at hacc
  have hslice := slice_across_bytes first last middle (8 - o % 8) (e := (o + w - 1) % 8) (by omega)
  rw [show (o + w - 1) % 8 + 1 + (8 * middle.length + (8 - o % 8)) = w by omega] at hslice
  rw [exec_extu_of_acc h hacc, hslice]

/-! ### The raw extraction of the same field -/

/-- Stream bit `p` of the output bytes is field bit `p`, and 0 past the field (42_raw_extract.md R75, R77). -/
theorem bigEndian_extb_testBit {outs : List Byte} (houts : extb buf o w = some outs) {p : Nat}
    (hp : p < 8 * outs.length) :
    (bigEndian outs).testBit (8 * outs.length - 1 - p) = true ↔ p < w ∧ BitIs buf (o + p) true := by
  rw [bigEndian_testBit outs p hp, (extbLoop_spec houts (le_refl w)).2 _ _ _ (Nat.mod_lt _ (by decide)),
    Nat.div_add_mod]

/-- The output bytes are the field's pattern, left-justified (42_raw_extract.md R78). -/
theorem bigEndian_extb {outs : List Byte} (hacc : acc buf o w = some u) (houts : extb buf o w = some outs) :
    bigEndian outs = u * 2 ^ (8 * outs.length - w) := by
  have hle : w ≤ 8 * outs.length := by
    rw [(extbLoop_spec houts (le_refl w)).1, outBytes]
    omega
  refine Nat.eq_of_testBit_eq fun k => ?_
  by_cases hk : k < 8 * outs.length
  · obtain ⟨p, hp, rfl⟩ : ∃ p, p < 8 * outs.length ∧ k = 8 * outs.length - 1 - p :=
      ⟨8 * outs.length - 1 - k, by omega, by omega⟩
    rw [Bool.eq_iff_iff, bigEndian_extb_testBit houts hp, Nat.testBit_mul_two_pow, Bool.and_eq_true, decide_eq_true_eq]
    by_cases hpw : p < w
    · rw [show 8 * outs.length - 1 - p - (8 * outs.length - w) = w - 1 - p by omega, accLoop_testBit hacc (le_refl w),
        show w - 1 - (w - 1 - p) = p by omega]
      exact ⟨fun ⟨_, htrue⟩ => ⟨by omega, by omega, hpw, htrue⟩, fun ⟨_, _, _, htrue⟩ => ⟨hpw, htrue⟩⟩
    · exact ⟨fun ⟨hlt, _⟩ => absurd hlt hpw, fun ⟨hge, _⟩ => by omega⟩
  · have hbound : u * 2 ^ (8 * outs.length - w) < 2 ^ (8 * outs.length) := by
      have := Nat.mul_lt_mul_of_pos_right (acc_lt hacc) (Nat.two_pow_pos (8 * outs.length - w))
      rwa [← pow_add, Nat.add_sub_cancel' hle] at this
    have hpow : 2 ^ (8 * outs.length) ≤ 2 ^ k := Nat.pow_le_pow_right (by decide) (by omega)
    rw [Nat.testBit_lt_two_pow ((bigEndian_lt outs).trans_le hpow), Nat.testBit_lt_two_pow (hbound.trans_le hpow)]

theorem ofNat_mod_two_pow (w n : Nat) : BitVec.ofNat w (n % 2 ^ w) = BitVec.ofNat w n :=
  BitVec.eq_of_toNat_eq (by rw [BitVec.toNat_ofNat, BitVec.toNat_ofNat, Nat.mod_mod])

/-- Settles O17: the slice is the accumulator's value, which the three commands store. -/
theorem resultsAreSlicesOfTheBuffer : Obligations.ResultsAreSlicesOfTheBuffer := by
  refine fun s bs offset width len o w hlen hbytes => ⟨fun h => ?_, fun h => ?_⟩
  · have hacc := hbytes.acc_eq h.pos (hlen ▸ h.fits)
    refine ⟨exec_extu_of_acc h hacc, ?_⟩
    rw [exec_exts_of_acc h hacc, ofNat_mod_two_pow]
  · have hfits : o + w ≤ 8 * bs.length := hlen ▸ h.fits
    obtain ⟨outs, houts, houtsLen, -⟩ := extb_spec (hbytes.fieldWritten h.pos hfits) h.pos
    refine ⟨succeed (setOut outs s), outs, ?_, houtsLen, holdsBytes_writeFrom_nil outs,
      (setOut_outLen_toNat (extb_length_le h houts) s).trans houtsLen,
      (bigEndian_extb (hbytes.acc_eq h.pos hfits) houts).trans (by rw [houtsLen, outBytes])⟩
    rw [exec, execExtb_valid s h, houts]

end Sys2Proof.Machine
end

section
/-! Raw extraction, EXTB (42_raw_extract.md): what it stores of a field and how many bytes, its agreement with EXTU, and the
copy of a whole buffer. -/

namespace Sys2Proof.Machine

variable {s t : State} {offset width len : Word} {buf : Memory} {bs outs : List Byte} {o w : Nat}

/-- EXTB where the field's bytes are known (R75). -/
theorem exec_extb_of_extb (h : RawOperands offset width len o w) (houts : extb s.buf o w = some outs) :
    exec (.extb offset width len) s = .next (succeed (setOut outs s)) := by
  rw [exec, execExtb_valid s h, houts]

/-- An EXTB that reports no error had valid operands and has stored the field's bytes. -/
theorem exec_extb_success (ht : exec (.extb offset width len) s = .next t) (herr : t.err = 0#3) :
    ∃ o w outs, RawOperands offset width len o w ∧ extb s.buf o w = some outs ∧ t = succeed (setOut outs s) := by
  rcases exec_cases (.extb offset width len) s with
    ⟨e, he⟩ | he | ⟨r, ⟨_, _, _, hi⟩, -⟩ | ⟨o, w, outs, ⟨_, _, _, hi, h⟩, houts, he⟩
  · rw [he] at ht
    cases ht
    exact absurd herr (errCode_ne_zero e)
  · rw [he] at ht
    cases ht
  · simp at hi
  · rw [he] at ht
    cases ht
    cases hi
    exact ⟨o, w, outs, h, houts, rfl⟩

/-- Settles O11: the staged bytes are OUT's, and no others are listed. -/
theorem extbCompletesWithTheFieldBytes : Obligations.ExtbCompletesWithTheFieldBytes := by
  refine fun s offset width len => ⟨opField_setWidth _, fun o w h hwritten => ?_, exec_offsetError .extb s,
    fun ho hw => exec_widthError (operation := .extb) s ho (.inl hw),
    fun ho hw => exec_rangeError (operation := .extb) s ho hw fun hop => absurd hop (by decide)⟩
  obtain ⟨outs, houts, hlen, hbits⟩ := extb_spec hwritten h.pos
  refine ⟨Memory.writeFrom [] 0 outs, s.draws, s.draws + 1, ?_, fun j hj => ?_, fun j hj => ?_⟩
  · rw [exec_extb_of_extb h houts, ← hlen]
    rfl
  · rw [← hlen] at hj
    exact ⟨outs[j], holdsBytes_writeFrom_nil outs j hj, hbits j hj⟩
  · rw [Memory.read_writeFrom_nil, List.getElem?_eq_none (hlen.trans_le hj)]

/-- The operands of a raw extraction of at most 64 bits are valid for an integer extraction (R78). -/
theorem RawOperands.intOperands (h : RawOperands offset width len o w) (hw : w ≤ 64) :
    IntOperands offset width len o w :=
  ⟨h.offset_eq, h.width_eq, h.pos, hw, h.fits⟩

/-- Settles O23: the output bytes are the accumulated pattern left-justified, and 64 bits hold a pattern of at most 64. -/
theorem rawAndIntegerExtractionAgree : Obligations.RawAndIntegerExtractionAgree := by
  intro s offset width len o w h hwritten
  obtain ⟨u, hacc, hlt, -⟩ := acc_spec hwritten h.pos
  obtain ⟨outs, houts, hlen, -⟩ := extb_spec hwritten h.pos
  have hvalue : bigEndian outs = u * 2 ^ (8 * ((w + 7) / 8) - w) := by
    rw [bigEndian_extb hacc houts, hlen, outBytes]
  refine ⟨_, outs, u, exec_extb_of_extb h houts, hlen, holdsBytes_writeFrom_nil outs, hacc, hvalue, fun hw =>
    ⟨_, exec_extu_of_acc (h.intOperands hw) hacc, ?_⟩⟩
  have hu : u < 2 ^ 64 := hlt.trans_le (Nat.pow_le_pow_right (by decide) hw)
  rw [hvalue, BitVec.toNat_ofNat, Nat.mod_eq_of_lt hu]

/-- A field that is the whole buffer is extracted as the buffer's own bytes: each output bit is the buffer bit at its place. -/
theorem HoldsBytes.extb_whole (h : HoldsBytes buf bs) (hpos : 1 ≤ 8 * bs.length) : extb buf 0 (8 * bs.length) = some bs := by
  obtain ⟨outs, houts, hlen, hbits⟩ := extb_spec (h.fieldWritten (o := 0) hpos (by omega)) hpos
  have hlen' : outs.length = bs.length := by rw [hlen, outBytes]; omega
  refine houts.trans (congrArg some (List.ext_getElem hlen' fun j hj hj' => BitVec.eq_of_getLsbD_eq fun k hk => ?_))
  have hbit := (hbits j hj (7 - k) (by omega)).1 (by omega)
  rw [Nat.zero_add, show 7 - (7 - k) = k by omega] at hbit
  have hbuf := bitIs_mul_add (b := 7 - k) (by omega) (h j hj')
  rw [show 7 - (7 - k) = k by omega] at hbuf
  exact hbit.unique hbuf

/-- Settles O24: the buffer's bytes are the output bytes, L of them. -/
theorem wholeBufferIsCopied : Obligations.WholeBufferIsCopied := by
  intro s bs offset width len hlen hbytes h
  have houts := hbytes.extb_whole (hlen ▸ h.pos)
  rw [hlen] at houts
  refine ⟨_, exec_extb_of_extb h houts, ?_, holdsBytes_writeFrom_nil bs⟩
  rw [succeed_outLen, setOut_outLen, hlen, BitVec.ofNat_toNat, BitVec.setWidth_eq]

/-- Settles O25: the extractor ran EXTB on valid operands, whose width the buffer holds, and the invariant bounds BUF_LEN. -/
theorem outputLengthIsCeilOfWidth : Obligations.OutputLengthIsCeilOfWidth := by
  intro s t hinv hbusy hext hop ht herr
  rw [step_extractor hext, if_pos hbusy, completeCommand_of_code (s := popEvent s) (operation := .extb) hop] at ht
  obtain ⟨o, w, outs, h, houts, rfl⟩ := exec_extb_success ht herr
  have hle : outs.length ≤ s.bufLen.toNat := extb_length_le h houts
  have hlen : (succeed (setOut outs (popEvent s))).outLen.toNat = (w + 7) / 8 := by
    rw [succeed_outLen, setOut_outLen_toNat hle, (extbLoop_spec houts (le_refl w)).1, outBytes]
  have hwidth : s.width.toInt = w := h.width_eq
  have hpos := h.pos
  have hfits : o + w ≤ 8 * s.bufLen.toNat := h.fits
  rw [hlen, hwidth]
  exact ⟨by omega, by omega, by omega, hinv.lenLegal, rfl⟩

end Sys2Proof.Machine
end

section
/-! Errors (60_exceptions.md): the order of the checks (R84), the error completion (R85), and the places where the machine
stops (R87). -/

namespace Sys2Proof.Machine

variable {s t : State}

/-! ### The order of the checks -/

/-- The extractor's step of an operation in flight is that command's completion with the operands in the registers
(40_command_cycle.md R64). -/
theorem step_eq_exec (hbusy : s.busy = true) (hext : extractorIsNext s = true) (hop : s.op ≠ 3#2) :
    ∃ operation : Operation, s.op = operation.code ∧
      step s = exec (operation.instr s.offset s.width s.bufLen) (popEvent s) := by
  rw [step_extractor hext, if_pos hbusy]
  exact completeCommand_eq_exec (popEvent s) hop

theorem ne_reserved_of_integer {op : BitVec 2} (hop : op = 0#2 ∨ op = 1#2) : op ≠ 3#2 := by
  rintro rfl
  exact absurd hop (by decide)

theorem not_integer_of_extb {op : BitVec 2} (hop : op = 2#2) : ¬(op = 0#2 ∨ op = 1#2) := by
  subst hop
  decide

/-- Settles O8: the reserved opcode by the completion's own rule, each other clause by the error that the command in flight
has on its operands; where none of the conditions holds the checks find no error, and the command reports success. -/
theorem firstErrorIsReported : Obligations.FirstErrorIsReported := by
  intro s hbusy hext
  refine ⟨fun hop => ?_, fun hop ho => ?_, fun hop ho hw => ?_, fun hop ho hw => ?_, fun hop ho hw hcap hrange => ?_,
    fun hop ho hw hrange => ?_, fun t ht herr => ?_⟩
  · rw [step_extractor hext, if_pos hbusy]
    exact completeCommand_of_reserved (s := popEvent s) hop
  · obtain ⟨operation, -, hstep⟩ := step_eq_exec hbusy hext hop
    exact hstep.trans (exec_offsetError operation _ ho)
  · obtain ⟨operation, -, hstep⟩ := step_eq_exec hbusy hext hop
    exact hstep.trans (exec_widthError _ ho (.inl hw))
  · obtain ⟨operation, hcode, hstep⟩ := step_eq_exec hbusy hext (ne_reserved_of_integer hop)
    exact hstep.trans (exec_widthError _ ho (.inr ⟨hcode ▸ hop, hw⟩))
  · obtain ⟨operation, -, hstep⟩ := step_eq_exec hbusy hext (ne_reserved_of_integer hop)
    exact hstep.trans (exec_rangeError _ ho hw (fun _ => hcap) hrange)
  · obtain ⟨operation, hcode, hstep⟩ := step_eq_exec hbusy hext (by rw [hop]; decide)
    exact hstep.trans (exec_rangeError _ ho hw (fun hint => absurd (hcode ▸ hint) (not_integer_of_extb hop)) hrange)
  · by_contra hnone
    simp only [not_or, not_and, not_lt, not_le] at hnone
    obtain ⟨hop, ho, hw, hcap, hrange⟩ := hnone
    have hcheck : check s.op s.offset.toInt s.width.toInt s.bufLen.toNat = none :=
      check_eq_none_iff.2 ⟨hop, ho, hw, fun hint => hcap fun hextb => not_integer_of_extb hextb hint, hrange⟩
    obtain ⟨operation, hcode, hstep⟩ := step_eq_exec hbusy hext hop
    exact herr (exec_ok_err (hcode ▸ hcheck) (hstep ▸ ht))

/-! ### The error completion -/

/-- Settles O15: a next state with an error is an error completion, whose fields beside STATUS are the old ones. -/
theorem errorCompletionWritesOnlyStatus : Obligations.ErrorCompletionWritesOnlyStatus := by
  intro s t i ht herr
  obtain ⟨e, rfl⟩ := exec_next_error ht herr
  rfl

/-! ### Where the machine stops -/

/-- The completion stops only on an unwritten byte (70_reset_and_hazards.md R95). -/
theorem completeCommand_next_or_fault (s : State) :
    (∃ t, completeCommand s = .next t) ∨ completeCommand s = .fault .unwrittenBufferByte := by
  by_cases hres : s.op = 3#2
  · exact .inl ⟨_, completeCommand_of_reserved hres⟩
  · obtain ⟨operation, -, hexec⟩ := completeCommand_eq_exec s hres
    rw [hexec]
    rcases exec_cases (operation.instr s.offset s.width s.bufLen) s with
      ⟨e, he⟩ | he | ⟨r, -, he⟩ | ⟨_, _, bytes, -, -, he⟩
    · exact .inl ⟨_, he⟩
    · exact .inr he
    · exact .inl ⟨_, he⟩
    · exact .inl ⟨_, he⟩

/-- The extractor's step stops only on an unwritten byte of the command in flight. -/
theorem step_extractor_next_or_fault (hext : extractorIsNext s = true) :
    (∃ t, step s = .next t) ∨ (s.busy = true ∧ step s = .fault .unwrittenBufferByte) := by
  rw [step_extractor hext]
  split
  next hbusy => exact (completeCommand_next_or_fault (popEvent s)).imp_right fun hc => ⟨hbusy, hc⟩
  next => exact .inl ⟨_, rfl⟩

/-- A write that is to no input while busy has a next state (20_memory.md R44). -/
theorem hostWrite_next {l : Location} (v : Word) (h : s.busy = true → isInput l = false) :
    ∃ t, hostWrite l v s = .next t := by
  cases hin : isInput l with
  | false =>
    rcases hostWrite_other v s hin with ⟨-, -, -, hw⟩ | ⟨-, hw⟩
    · exact ⟨_, hw⟩
    · exact ⟨_, hw⟩
  | true =>
    have hidle : s.busy = false := Bool.eq_false_iff.2 fun hbusy => by simp [h hbusy] at hin
    rcases hostWrite_input v hin hidle with ⟨-, hw⟩ | ⟨-, hw⟩ | ⟨-, hw⟩ | ⟨-, -, hw⟩ | ⟨-, -, hw⟩ | ⟨_, -, hw⟩ <;>
      exact ⟨_, hw⟩

theorem dutyKept_write_input {size : AccessSize} {off : Nat} {v : Word} {l : Location} (hl : locationOf off = some l)
    (hin : isInput l = true) : dutyKept true (.write size off v) = false := by
  simp [dutyKept, accessOff, hl, hin]

theorem dutyKept_of_not_permitted {busy : Bool} {a : Access} (h : accessPermitted (accessSize a) (accessOff a) = false) :
    dutyKept busy a = false := by
  refine Bool.eq_false_iff.2 fun hkept => ?_
  obtain ⟨l, -, hperm, -⟩ := dutyKept_iff.1 hkept
  exact absurd (hperm.symm.trans h) (by decide)

theorem dutyKept_outside {busy : Bool} {a : Access} (h : 0x30000 ≤ accessOff a) : dutyKept busy a = false := by
  refine Bool.eq_false_iff.2 fun hkept => ?_
  obtain ⟨l, hl, -⟩ := dutyKept_iff.1 hkept
  exact absurd (locationOf_lt hl) (Nat.not_lt.2 h)

/-- A host access has a next state, or it breaks a duty and is refused inside BFX, a fault outside (10_state.md R15,
20_memory.md R43, 70_reset_and_hazards.md R97). -/
theorem hostTurn_duty_cases (a : Access) (s : State) :
    (∃ t, hostTurn a s = .next t) ∨
    (dutyKept s.busy a = false ∧ accessOff a < 0x30000 ∧ ∃ r, hostTurn a s = .refused r) ∨
    (dutyKept s.busy a = false ∧ 0x30000 ≤ accessOff a ∧ hostTurn a s = .fault .outsideBfx) := by
  rcases hostTurn_cases a s with
    ⟨hoff, ha⟩ | ⟨l, hl, hperm, ha⟩ | ⟨l, hl, -, ⟨size, off, -, ha⟩ | ⟨size, off, v, rfl, ha⟩⟩
  · exact .inr (.inr ⟨dutyKept_outside hoff, hoff, ha⟩)
  · exact .inr (.inl ⟨dutyKept_of_not_permitted hperm, locationOf_lt hl, _, ha⟩)
  · exact .inl ⟨_, ha⟩
  · by_cases hbreaks : s.busy = true ∧ isInput l = true
    · obtain ⟨hbusy, hin⟩ := hbreaks
      exact .inr (.inl ⟨hbusy ▸ dutyKept_write_input hl hin, locationOf_lt hl, _, ha.trans (hostWrite_busy v hin hbusy)⟩)
    · obtain ⟨t, hw⟩ := hostWrite_next (s := s) v fun hbusy => Bool.eq_false_iff.2 fun hin => hbreaks ⟨hbusy, hin⟩
      exact .inl ⟨t, ha.trans hw⟩

/-- Everything a step can do: a next state; a refusal of an access that breaks a duty inside BFX; a fault of an access that
is not BFX's, which breaks one too; or the fault of the command in flight on an unwritten byte. -/
theorem step_cases (s : State) :
    (∃ t, step s = .next t) ∨
    (∃ a rest, s.pending = .access a :: rest ∧ dutyKept s.busy a = false ∧
      ((accessOff a < 0x30000 ∧ ∃ r, step s = .refused r) ∨ (0x30000 ≤ accessOff a ∧ step s = .fault .outsideBfx))) ∨
    (s.busy = true ∧ extractorIsNext s = true ∧ step s = .fault .unwrittenBufferByte) := by
  rcases event_cases s with hext | ⟨a, rest, he⟩ | ⟨rest, he⟩
  · rcases step_extractor_next_or_fault hext with hnext | ⟨hbusy, hfault⟩
    · exact .inl hnext
    · exact .inr (.inr ⟨hbusy, hext, hfault⟩)
  · rw [step_access he]
    rcases hostTurn_duty_cases a (popEvent s) with hnext | ⟨hduty, hoff, hr⟩ | ⟨hduty, hoff, hf⟩
    · exact .inl hnext
    · exact .inr (.inl ⟨a, rest, he, hduty, .inl ⟨hoff, hr⟩⟩)
    · exact .inr (.inl ⟨a, rest, he, hduty, .inr ⟨hoff, hf⟩⟩)
  · exact .inl ⟨_, step_reset he⟩

/-- Settles O47, by what the step can do: each clause leaves one case, and an access that keeps the duties none that stops. -/
theorem stepStopsOnlyOnBrokenDutiesAndUnwrittenBytes : Obligations.StepStopsOnlyOnBrokenDutiesAndUnwrittenBytes := by
  intro s
  rcases step_cases s with ⟨t, ht⟩ | ⟨a, rest, he, hduty, hstop⟩ | ⟨hbusy, hext, hfault⟩
  · exact ⟨fun r hr => by simp [ht] at hr, fun f hf => by simp [ht] at hf, fun _ _ _ _ => ⟨t, ht⟩⟩
  · refine ⟨fun r hr => ⟨a, rest, he, hduty, ?_⟩, fun f hf => .inr ?_, fun a' rest' he' hkept => ?_⟩
    · rcases hstop with ⟨hoff, -⟩ | ⟨-, hfault⟩
      · exact hoff
      · simp [hfault] at hr
    · rcases hstop with ⟨-, r, hrefused⟩ | ⟨hoff, hfault⟩
      · simp [hrefused] at hf
      · cases hfault.symm.trans hf
        exact ⟨rfl, a, rest, he, hoff⟩
    · cases he.symm.trans he'
      exact absurd (hkept.symm.trans hduty) (by decide)
  · refine ⟨fun r hr => by simp [hfault] at hr, fun f hf => .inl ?_, fun a rest he _ => ?_⟩
    · cases hfault.symm.trans hf
      exact ⟨rfl, hbusy, hext⟩
    · simp [extractorIsNext, he] at hext

end Sys2Proof.Machine
end

section
/-! Reset and hazards (70_reset_and_hazards.md): the reset input (R93), host accesses while BUSY = 1 (R97 to R99), unwritten
buffer bytes (R95), the persistence of the results (R100) and the end of a run (R102). -/

namespace Sys2Proof.Machine

variable {s t : State} {v : Word} {rest : List Event}

/-! ### Unwritten buffer bytes -/

section

variable {offset width len : Word} {o w : Nat}

/-- A command faults only after its checks: an error completes it before any byte is read (60_exceptions.md R84). -/
theorem check_of_exec_fault {operation : Operation} {f : Fault} (h : exec (operation.instr offset width len) s = .fault f) :
    check operation.code offset.toInt width.toInt len.toNat = none := by
  cases hc : check operation.code offset.toInt width.toInt len.toNat with
  | none => rfl
  | some e => rw [exec_error s hc] at h; cases h

theorem exec_extu_fault_iff_of_operands (h : IntOperands offset width len o w) :
    exec (.extu offset width len) s = .fault .unwrittenBufferByte ↔ ¬FieldWritten s.buf o w := by
  rw [exec, execExtu_valid s h, ← acc_eq_none_iff h.pos]
  cases acc s.buf o w <;> simp

theorem exec_exts_fault_iff_of_operands (h : IntOperands offset width len o w) :
    exec (.exts offset width len) s = .fault .unwrittenBufferByte ↔ ¬FieldWritten s.buf o w := by
  rw [exec, execExts_valid s h, ← acc_eq_none_iff h.pos]
  cases acc s.buf o w <;> simp

theorem exec_extb_fault_iff_of_operands (h : RawOperands offset width len o w) :
    exec (.extb offset width len) s = .fault .unwrittenBufferByte ↔ ¬FieldWritten s.buf o w := by
  rw [exec, execExtb_valid s h, ← extb_eq_none_iff h.pos]
  cases extb s.buf o w <;> simp

/-- Where passing the checks means having valid operands, and on those a fault means an unwritten byte, the command faults
exactly where both hold. -/
theorem exec_fault_iff {operation : Operation} {Operands : Nat → Nat → Prop}
    (hcheck : check operation.code offset.toInt width.toInt len.toNat = none → ∃ o w, Operands o w)
    (hfault : ∀ {o w}, Operands o w →
      (exec (operation.instr offset width len) s = .fault .unwrittenBufferByte ↔ ¬FieldWritten s.buf o w)) :
    exec (operation.instr offset width len) s = .fault .unwrittenBufferByte ↔
      ∃ o w, Operands o w ∧ ¬FieldWritten s.buf o w := by
  constructor
  · intro h
    obtain ⟨o, w, hops⟩ := hcheck (check_of_exec_fault h)
    exact ⟨o, w, hops, (hfault hops).1 h⟩
  · rintro ⟨o, w, hops, hunwritten⟩
    exact (hfault hops).2 hunwritten

end

/-- A command has no other stop than the fault on an unwritten byte. -/
theorem exec_ne_other_stop (i : Instr) (s : State) :
    exec i s ≠ .fault .outsideBfx ∧ ∀ r, exec i s ≠ .refused r := by
  rcases exec_cases i s with ⟨e, he⟩ | he | ⟨r, -, he⟩ | ⟨_, _, bytes, -, -, he⟩ <;> simp [he]

/-- Settles O12: the checks pass exactly on valid operands, and on those the loops have a value exactly on a written field. -/
theorem commandFaultsExactlyOnUnwrittenBytes : Obligations.CommandFaultsExactlyOnUnwrittenBytes :=
  fun s _ _ _ =>
    ⟨exec_fault_iff (operation := .extu) (intOperands_of_check (.inl rfl)) exec_extu_fault_iff_of_operands,
      exec_fault_iff (operation := .exts) (intOperands_of_check (.inr rfl)) exec_exts_fault_iff_of_operands,
      exec_fault_iff (operation := .extb) rawOperands_of_check exec_extb_fault_iff_of_operands,
      fun i => (exec_ne_other_stop i s).1, fun i => (exec_ne_other_stop i s).2⟩

/-! ### The results persist -/

/-- Every next state of the command in the registers, by its OP: an error completion whatever the OP, a new RESULT of an
integer extraction, a new OUT of EXTB. -/
theorem completeCommand_next_by_op (ht : completeCommand s = .next t) :
    (∃ e, t = errorCompletion e s) ∨
    ((s.op = 0#2 ∨ s.op = 1#2) ∧ ∃ r, t = succeed (setResult r s)) ∨
    (s.op = 2#2 ∧ ∃ bytes, t = succeed (setOut bytes s)) := by
  rcases completeCommand_cases s with ⟨hop, hc⟩ | ⟨hop, hc⟩ | ⟨hop, hc⟩ | ⟨-, hc⟩ <;> rw [hc] at ht
  · exact (exec_integer_next (.inl ht)).imp_right fun hr => .inl ⟨.inl hop, hr⟩
  · exact (exec_integer_next (.inr ht)).imp_right fun hr => .inl ⟨.inr hop, hr⟩
  · exact (exec_extb_next ht).imp_right fun ⟨bytes, _, hb⟩ => .inr ⟨hop, bytes, hb⟩
  · cases ht
    exact .inl ⟨_, rfl⟩

/-- `t` has the OUT_LEN and the OUT bytes of `s`. -/
structure SameOut (s t : State) : Prop where
  outLen : t.outLen = s.outLen
  outByte : ∀ j, outByte t j = outByte s j

theorem SameOut.not_changed (h : SameOut s t) :
    ¬(t.outLen ≠ s.outLen ∨ ∃ j < s.outLen.toNat, Machine.outByte t j ≠ Machine.outByte s j) := by
  rintro (hlen | ⟨j, -, hbyte⟩)
  · exact hlen h.outLen
  · exact hbyte (h.outByte j)

/-- `t` holds the results of `s`: RESULT, OUT_LEN and the OUT bytes. -/
structure SameResults (s t : State) : Prop extends SameOut s t where
  result : t.result = s.result

/-- A write changes no result, and ERR only as it sets BUSY: it is an accepted START, or it writes an input or nothing. -/
theorem hostWrite_next_results {l : Location} (ht : hostWrite l v s = .next t) :
    SameResults s t ∧ (t.err = s.err ∨ t.busy = true) := by
  cases hin : isInput l with
  | false =>
    rcases hostWrite_other v s hin with ⟨-, -, -, hw⟩ | ⟨-, hw⟩ <;> rw [hw] at ht <;> cases ht
    · exact ⟨⟨⟨rfl, fun _ => rfl⟩, rfl⟩, .inr rfl⟩
    · exact ⟨⟨⟨rfl, fun _ => rfl⟩, rfl⟩, .inl rfl⟩
  | true =>
    cases hb : s.busy with
    | true => rw [hostWrite_busy v hin hb] at ht; cases ht
    | false =>
      rcases hostWrite_input v hin hb with
        ⟨-, hw⟩ | ⟨-, hw⟩ | ⟨-, hw⟩ | ⟨-, -, hw⟩ | ⟨-, -, hw⟩ | ⟨_, -, hw⟩ <;>
        rw [hw] at ht <;> cases ht <;> exact ⟨⟨⟨rfl, fun _ => rfl⟩, rfl⟩, .inl rfl⟩

/-- A host access changes no result, and ERR only as it sets BUSY. -/
theorem hostTurn_next_results {a : Access} (ht : hostTurn a s = .next t) :
    SameResults s t ∧ (t.err = s.err ∨ t.busy = true) := by
  rcases hostTurn_cases a s with
    ⟨-, ha⟩ | ⟨l, -, -, ha⟩ | ⟨l, -, -, ⟨size, off, -, ha⟩ | ⟨size, off, v, -, ha⟩⟩ <;> rw [ha] at ht
  · cases ht
  · cases ht
  · cases ht
    obtain ⟨r, k, hread⟩ := hostRead_cases l s
    rw [hread]
    exact ⟨⟨⟨rfl, fun _ => rfl⟩, rfl⟩, .inl rfl⟩
  · exact hostWrite_next_results ht

/-- What a step that is no reset can do to the results and to an idle machine's ERR: nothing, or a START is accepted, or the
command in flight completes. -/
theorem step_next_results (ht : step s = .next t) (hreset : ∀ rest, s.pending ≠ .reset :: rest) :
    (SameResults s t ∧ (s.busy = false → t.err = s.err ∨ t.busy = true)) ∨
    (s.busy = true ∧ extractorIsNext s = true ∧ completeCommand (popEvent s) = .next t) := by
  rcases event_cases s with hext | ⟨a, rest, he⟩ | ⟨rest, he⟩
  · rw [step_extractor hext] at ht
    split at ht
    next hbusy => exact .inr ⟨hbusy, hext, ht⟩
    next => cases ht; exact .inl ⟨⟨⟨rfl, fun _ => rfl⟩, rfl⟩, fun _ => .inl rfl⟩
  · rw [step_access he] at ht
    obtain ⟨hsame, herr⟩ := hostTurn_next_results ht
    exact .inl ⟨⟨⟨hsame.outLen, hsame.outByte⟩, hsame.result⟩, fun _ => herr⟩
  · exact absurd he (hreset rest)

/-- Settles O48: outside a completion no result changes, and an idle ERR only with BUSY, which only a START sets; each
completion changes the results of its own kind. -/
theorem resultsPersist : Obligations.ResultsPersist := by
  intro s t ht hreset
  rcases step_next_results ht hreset with ⟨hsame, herr⟩ | ⟨hbusy, hext, hc⟩
  · exact ⟨fun h => absurd hsame.result h, fun h => absurd h hsame.not_changed,
      fun hidle hne => (onlyStartBeginsACommand s t ht).1 hidle ((herr hidle).resolve_left hne)⟩
  · have hidle : s.busy ≠ false := by simp [hbusy]
    rcases completeCommand_next_by_op hc with ⟨e, rfl⟩ | ⟨hop, r, rfl⟩ | ⟨hop, bytes, rfl⟩
    · exact ⟨fun h => absurd rfl h, fun h => absurd h (SameOut.not_changed ⟨rfl, fun _ => rfl⟩), fun h => absurd h hidle⟩
    · exact ⟨fun _ => ⟨hbusy, hext, hop, rfl⟩, fun h => absurd h (SameOut.not_changed ⟨rfl, fun _ => rfl⟩),
        fun h => absurd h hidle⟩
    · exact ⟨fun h => absurd rfl h, fun _ => ⟨hbusy, hext, hop, rfl⟩, fun h => absurd h hidle⟩

/-! ### The end of a run -/

/-- Taking an event off leaves no bus transaction where none was left. -/
theorem busTransactions_tail {ps : List Event} (h : busTransactions ps = []) : busTransactions ps.tail = [] := by
  cases ps with
  | nil => rfl
  | cons e ps =>
    cases e with
    | access a => simp [busTransactions] at h
    | extractor => exact h
    | reset => exact h

/-- The next step of a run that has ended: an idle turn of the extractor, or the reset input. -/
theorem step_of_runEnded (h : runEnded s = true) :
    step s = .next (popEvent s) ∨
    (Event.reset ∈ s.pending ∧ step s = .next (resetInput (popEvent s))) := by
  obtain ⟨hbus, hidle⟩ := (runEnded_iff s).1 h
  rcases event_cases s with hext | ⟨a, rest, he⟩ | ⟨rest, he⟩
  · exact .inl (by rw [step_extractor hext, hidle, if_neg (by decide)])
  · exact absurd hbus (busTransactions_ne_nil (a := a) (by simp [he]))
  · exact .inr ⟨by simp [he], step_reset he⟩

/-- An ended run is still ended after either of those steps. -/
theorem runEnded_next (h : runEnded s = true) :
    runEnded (popEvent s) = true ∧ runEnded (resetInput (popEvent s)) = true := by
  obtain ⟨hbus, hidle⟩ := (runEnded_iff s).1 h
  exact ⟨(runEnded_iff _).2 ⟨busTransactions_tail hbus, hidle⟩, (runEnded_iff _).2 ⟨busTransactions_tail hbus, rfl⟩⟩

/-- A run that has ended stays ended, and without a reset to come only its list of events gets shorter. -/
theorem run_of_runEnded (n : Nat) : ∀ {s : State}, runEnded s = true →
    ∃ t, Host.Core.run core n s = .next t ∧ runEnded t = true ∧
      (Event.reset ∉ s.pending → t = { s with pending := s.pending.drop n }) := by
  induction n with
  | zero => exact fun {s} h => ⟨s, rfl, h, fun _ => rfl⟩
  | succ n ih =>
    intro s h
    obtain ⟨hpop, hreset⟩ := runEnded_next h
    rcases step_of_runEnded h with hs | ⟨hmem, hs⟩
    · obtain ⟨t, ht, hended, hsame⟩ := ih hpop
      refine ⟨t, run_of_step hs ht, hended, fun hno => ?_⟩
      rw [hsame fun hmem => hno (List.mem_of_mem_tail hmem), popEvent_pending, List.drop_tail]
      rfl
    · obtain ⟨t, ht, hended, -⟩ := ih hreset
      exact ⟨t, run_of_step hs ht, hended, fun hno => absurd hmem hno⟩

/-- Settles O51: the run that has ended step by step; and BUSY = 1, like an access to come, denies that it has. -/
theorem endedRunStaysAsItIs : Obligations.EndedRunStaysAsItIs := by
  refine fun s => ⟨fun h n => run_of_runEnded n h, fun hbusy => ?_, fun a ha => ?_⟩
  · simp [runEnded, hbusy]
  · simp [runEnded, busTransactions_ne_nil ha]

/-! ### Accesses while BUSY = 1 -/

/-- Settles O52: STATUS is read before the extractor's turn, while BUSY = 1, or after it, when the completion has finished. -/
theorem statusReadAfterStartMayFindEither : Obligations.StatusReadAfterStartMayFindEither := by
  intro s u rest hidle hu
  obtain ⟨hfinished, hdone, hpending, hreplies⟩ := completeCommand_finished hu
  refine ⟨⟨_, _, run_two (step_write_start hidle rfl rfl) (step_read_status rfl), rfl, statusWord_busy _⟩,
    ⟨{ u with pending := rest, replies := .word (statusWord u) :: u.replies }, statusWord u, ?_, by rw [hreplies],
      (statusWord_busy u).trans hfinished, (statusWord_done u).trans hdone⟩⟩
  refine run_of_step (step_write_start hidle rfl rfl) (run_two (t := u) ?_ (step_read_status hpending))
  rw [step_extractor rfl, if_pos rfl]
  exact hu

/-- While BUSY = 1 a permitted write to an input is refused (R97). -/
theorem step_write_input_busy {size : AccessSize} {off : Nat} {l : Location} (hbusy : s.busy = true)
    (h : s.pending = .access (.write size off v) :: rest) (hl : locationOf off = some l)
    (hperm : accessPermitted size off = true) (hinput : isInput l = true) : step s = .refused .inputWriteWhileBusy :=
  (step_write h hl hperm).trans (hostWrite_busy v hinput hbusy)

/-- Settles O34: the register map puts an input at each of these offsets. -/
theorem inputWritesWhileBusyAreRefused : Obligations.InputWritesWhileBusyAreRefused := by
  refine fun s v rest off hbusy => ⟨fun hoff h => ?_, fun hlo hhi h => ?_⟩
  · rcases hoff with rfl | rfl | rfl | rfl
    · exact step_write_input_busy hbusy h locationOf_ctrl rfl rfl
    · exact step_write_input_busy hbusy h locationOf_offset rfl rfl
    · exact step_write_input_busy hbusy h locationOf_width rfl rfl
    · exact step_write_input_busy hbusy h locationOf_bufLen rfl rfl
  · obtain ⟨i, rfl⟩ := Nat.exists_eq_add_of_le hlo
    exact step_write_input_busy hbusy h (locationOf_bufByte (by omega)) (accessPermitted_byte hlo) rfl

/-- A result register read while BUSY = 1 replies with the next draw (R98, log 3). -/
theorem readResultWord_busy (hbusy : s.busy = true) (v : Word) :
    readResultWord v s = nextDraw (replyWord (Config.freeReadWord s.draws) s) := if_pos hbusy

/-- Settles O37: results by the next draw, inputs as they are read idle or busy. -/
theorem busyReadsComplete : Obligations.BusyReadsComplete := by
  refine fun s rest hbusy => ⟨fun off hoff => ⟨Config.freeReadWord s.draws, ?_⟩,
    fun j hj => ⟨Config.freeReadByte s.draws, ?_⟩, step_read_ctrl rfl, step_read_offset rfl, step_read_width rfl,
    step_read_bufLen rfl, fun i byte hi hbyte => step_read_bufByte hi hbyte rfl⟩
  · have hread := readResultWord_busy (s := { s with pending := rest }) hbusy
    rcases hoff with rfl | rfl | rfl
    · exact (step_read rfl locationOf_resultLo rfl).trans (congrArg _ (hread _))
    · exact (step_read rfl locationOf_resultHi rfl).trans (congrArg _ (hread _))
    · exact (step_read rfl locationOf_outLen rfl).trans (congrArg _ (hread _))
  · rw [step_read rfl (locationOf_outByte hj) (accessPermitted_byte (by omega))]
    exact congrArg _ (if_pos hbusy)

/-! ### The reset input -/

/-- Settles O43: the reset input's own field values, from whatever state the event is taken. -/
theorem resetInputRestoresResetValues : Obligations.ResetInputRestoresResetValues := fun _ _ h =>
  ⟨_, step_reset h, rfl, rfl, rfl, rfl, rfl, rfl, rfl, rfl, rfl, Memory.read_nil, Memory.read_nil⟩

end Sys2Proof.Machine
end
